-- ==== Sys2Proof/Word.lean ====
section
/-! DEFINITION. Word types of the block (00_scope.md R7, R9; 70_reset_and_hazards.md R254 P1). -/

namespace Sys2Proof

/-- A timestamp, the receive timer, an interval: `TICK_W` = 32 bits (R7, decision D6). -/
abbrev Tick := BitVec 32

/-- A NEC code, `CODE_W` = 32 bits, bit 31 first on the air (R7, R65). -/
abbrev Code := BitVec 32

/-- A host command word `(op, data)`: bits 34:32 the opcode, bits 31:0 the operand (R80). -/
abbrev CmdWord := BitVec 35

end Sys2Proof
end

