-- ==== Sys2Proof/Config.lean ====
section
/-! DEFINITION. The configuration (00_scope.md R7, 30_encoding.md R86, 42_encoder.md R170), the input ports of one
clock cycle (10_state.md R20), and the free values: what the spec leaves open and nothing here fixes. -/

namespace Sys2Proof

/-- A tolerance window, both ends inclusive, in receive ticks (R13, R86). -/
structure Window where
  min : Nat
  max : Nat
  deriving DecidableEq, Repr

/-- The parameters of R7, under the spec's names. The block's rules read all but the two tick periods, which only the
timing laws use (R185). Which values are allowed is `Config.wf` (WellFormed.lean, R254). -/
structure Config where
  /-- `CODE_W` -/
  codeW : Nat
  /-- `NBITS` -/
  nbits : Nat
  /-- `EDGE_CAP` -/
  edgeCap : Nat
  /-- `CNT_W` -/
  cntW : Nat
  /-- `TICK_W` -/
  tickW : Nat
  /-- `RX_TICK_PERIOD`, in nanoseconds (log entry 18) -/
  rxTickPeriod : Nat
  /-- `SYM_TICK_PERIOD`, in nanoseconds (log entry 18) -/
  symTickPeriod : Nat
  /-- `RX_TIMEOUT_TICKS` -/
  rxTimeoutTicks : Nat
  /-- `W_PS`, prologue silence -/
  wPS : Window
  /-- `W_PP`, prologue pulse -/
  wPP : Window
  /-- `W_RP`, repetition pulse -/
  wRP : Window
  /-- `W_SS`, symbol silence -/
  wSS : Window
  /-- `W_S0`, symbol-0 pulse -/
  wS0 : Window
  /-- `W_S1`, symbol-1 pulse -/
  wS1 : Window
  /-- `N_P`, prologue ON, in symbol ticks, as the seven that follow -/
  nP : Nat
  mP : Nat
  n0 : Nat
  m0 : Nat
  n1 : Nat
  m1 : Nat
  nE : Nat
  mE : Nat
  /-- `TXCNT_W` -/
  txcntW : Nat
  deriving DecidableEq, Repr

/-- The reference profile: R7's values, the windows of R86 and the burst lengths of R170. -/
def Config.reference : Config where
  codeW := 32
  nbits := 32
  edgeCap := 256
  cntW := 9
  tickW := 32
  rxTickPeriod := 10000
  symTickPeriod := 56250
  rxTimeoutTicks := 1000
  wPS := ⟨810, 990⟩
  wPP := ⟨405, 495⟩
  wRP := ⟨202, 248⟩
  wSS := ⟨50, 62⟩
  wS0 := ⟨50, 62⟩
  wS1 := ⟨151, 186⟩
  nP := 160
  mP := 80
  n0 := 10
  m0 := 10
  n1 := 10
  m1 := 30
  nE := 10
  mE := 720
  txcntW := 16

/-- The input ports of R20 as sampled at one rising edge of `clk` (`clk` itself is the step). One-bit ports are
`Bool`, `true` for level 1. -/
structure PortIn where
  /-- `rst` -/
  rst : Bool
  /-- `ir_rx_i` -/
  irRx : Bool
  /-- `rx_tick_i` -/
  rxTick : Bool
  /-- `sym_tick_i` -/
  symTick : Bool
  /-- `cmd_valid_i` -/
  cmdValid : Bool
  /-- `cmd_op_i` -/
  cmdOp : BitVec 3
  /-- `cmd_data_i` -/
  cmdData : BitVec 32
  deriving DecidableEq, Repr, Inhabited

/-- No reset, the line at its idle level 1 (R20), no strobe and no command. -/
def PortIn.quiet : PortIn :=
  { rst := false, irRx := true, rxTick := false, symTick := false, cmdValid := false, cmdOp := 0, cmdData := 0 }

/-- FREE VALUE (log entry 2): the contents of entry `i` of the edge buffer after power-on, which R253 leaves
unspecified (93_implementation_defined.md U2, `any value`). -/
opaque Config.powerOnEntry : Nat → Tick

/-- FREE VALUE (log entry 3): what the platform drives on the input ports in a cycle whose inputs the state does not
list; the argument numbers those cycles. -/
opaque Config.freePort : Nat → PortIn

end Sys2Proof
end

