-- ==== Sys2Proof/Machine/State.lean ====
section
/-! DEFINITION. The state: every register of 10_state.md R22 grouped by its owner, the edge buffer (20_memory.md R60), the
configuration it runs under, and the listed inputs of the coming cycles. Registers whose width is a parameter (`CNT_W`,
`TXCNT_W`) are `Nat` (log entry 5); that they fit their width is part of `State.Inv` (Safety.lean). -/

namespace Sys2Proof.Machine

/-- `rs_st` (R27); its codes are R89. -/
inductive RsState where
  | off
  | idle
  | wait
  | decode
  deriving DecidableEq, Repr

/-- `d_st` (R31). -/
inductive DState where
  | idle
  | init
  | symSil
  | symPul
  deriving DecidableEq, Repr

/-- `tx_st` (R34). R89's code 3 is unused and no rule reaches it, so it is no value here (log entry 6). -/
inductive TxState where
  | idle
  | on
  | off
  deriving DecidableEq, Repr

/-- Edge capture's line registers `ir_s1`, `ir_s2`, `ir_prev` (R23). -/
structure LineRegs where
  s1 : Bool
  s2 : Bool
  prev : Bool
  deriving DecidableEq, Repr

/-- The session's `rs_st`, `last_count` (`CNT_W` bits), `last_act` (R27, R28). -/
structure SessionRegs where
  st : RsState
  lastCount : Nat
  lastAct : Tick
  deriving DecidableEq, Repr

/-- The result registers `res_code`, `res_rep`, `res_err`, the NecFrame (R29, R90). -/
structure ResultRegs where
  code : Code
  rep : Bool
  err : Bool
  deriving DecidableEq, Repr

/-- The decoder's `d_st`, `d_pos`, `d_n` (`CNT_W` bits each), `d_bits`, `d_code`, `d_rep` (R31). -/
structure DecoderRegs where
  st : DState
  pos : Nat
  n : Nat
  bits : BitVec 6
  code : Code
  rep : Bool
  deriving DecidableEq, Repr

/-- The encoder's `tx_st`, `tx_shift`, `tx_sym` (0..33, log entry 6), `tx_cnt` (`TXCNT_W` bits) (R34). -/
structure EncoderRegs where
  st : TxState
  shift : Code
  sym : Fin 34
  cnt : Nat
  deriving DecidableEq, Repr

/-- The edge buffer `EB` (R26, R60): the entries written since power-on, as (index, value), indices strictly rising. An
index that is not listed was never written. -/
abbrev Memory := List (Nat × Tick)

/-- The canonical form of the buffer: indices strictly rising. (An entry that is not listed has no value of the
model's, so no listed value can equal it.) -/
abbrev Memory.wf (m : Memory) : Prop := m.Pairwise fun a b => a.1 < b.1

/-- The whole machine. -/
structure State where
  /-- The parameters of R7; no rule changes them (log entry 1). -/
  cfg : Config
  /-- `ir_s1`, `ir_s2`, `ir_prev` -/
  line : LineRegs
  /-- `rx_time` (R24) -/
  rxTime : Tick
  /-- `edge_count`, `CNT_W` bits (R25) -/
  edgeCount : Nat
  /-- `EB[0 .. EDGE_CAP - 1]` (R26) -/
  eb : Memory
  /-- `rs_st`, `last_count`, `last_act` -/
  ses : SessionRegs
  /-- `res_code`, `res_rep`, `res_err` -/
  res : ResultRegs
  /-- `d_st`, `d_pos`, `d_n`, `d_bits`, `d_code`, `d_rep` -/
  dec : DecoderRegs
  /-- `tx_pending` (R33) -/
  txPending : Code
  /-- `tx_st`, `tx_shift`, `tx_sym`, `tx_cnt` -/
  tx : EncoderRegs
  /-- MODEL'S OWN (log entry 3): the input ports of the coming cycles, this cycle's first. -/
  inputs : List PortIn
  /-- MODEL'S OWN (log entry 3): how many cycles have run on inputs that were not listed. -/
  freeIdx : Nat
  deriving DecidableEq, Repr

/-- Why the machine stops. The block itself never does (60_exceptions.md R220); this stops states no run reaches. -/
inductive Fault where
  /-- Raised by the decoder's interval read (40_decoder.md R101) of an index at or above `EDGE_CAP`, an entry that does
  not exist (20_memory.md R60; log entry 8). Safe; unreachable from a state with `State.Inv` (R64). -/
  | noSuchEntry
  deriving DecidableEq, Repr

/-- Why a step is refused. -/
inductive Refusal where
  /-- An arm of exec whose instruction has no meaning yet. Safe. No arm raises it now. -/
  | notModelled (mnemonic : String)
  /-- Raised by every cycle of a machine whose configuration violates 70_reset_and_hazards.md R254, which says that a
  model refuses it (log entry 9). Safe. -/
  | badConfig
  deriving DecidableEq, Repr

/-- The empty result, "no code yet" (R29, R90). -/
def ResultRegs.empty : ResultRegs := { code := 0, rep := false, err := false }

/-- The state after reset (R22's reset values, R251), in the reference profile, with nothing in the edge buffer and no
input listed. -/
def State.reset : State :=
  { cfg := Config.reference
    line := { s1 := true, s2 := true, prev := true }
    rxTime := 0
    edgeCount := 0
    eb := []
    ses := { st := .off, lastCount := 0, lastAct := 0 }
    res := ResultRegs.empty
    dec := { st := .idle, pos := 0, n := 0, bits := 0, code := 0, rep := false }
    txPending := 0
    tx := { st := .idle, shift := 0, sym := 0, cnt := 0 }
    inputs := []
    freeIdx := 0 }

end Sys2Proof.Machine
end

