-- ==== Sys2Proof/Syntax.lean ====
section
/-! DEFINITION. The instructions: the host commands of 30_encoding.md R81, one constructor per row of
spec/opcode_table.json. `data` is the operand of `TX_SET_CODE` only; every other command ignores it (R82). -/

namespace Sys2Proof

inductive Instr where
  /-- `NOP` (R201) -/
  | nop
  /-- `RX_ENABLE` (R202) -/
  | rxEnable
  /-- `RX_DISABLE` (R203) -/
  | rxDisable
  /-- `RX_RESULT_CLEAR` (R204) -/
  | rxResultClear
  /-- `TX_SET_CODE code` (R205) -/
  | txSetCode (code : Code)
  /-- opcode 5, reserved (R206) -/
  | reserved5
  /-- opcode 6, reserved (R206) -/
  | reserved6
  /-- opcode 7, reserved (R206) -/
  | reserved7
  deriving DecidableEq, Repr

/-- One line of a program (R93), the pseudo-instruction `RX_RESTART` among them (R94). -/
inductive AsmLine where
  | command (i : Instr)
  | rxRestart
  deriving DecidableEq, Repr

end Sys2Proof
end

