-- ==== Sys2Proof/WellFormed.lean ====
section
/-! DEFINITION. What is well formed: the configuration constraints P1 to P7 of 70_reset_and_hazards.md R254, one check
each, and instructions (all of them: the fields' types already bound every operand). -/

namespace Sys2Proof

/-- P3 for one window. -/
def Window.wf (w : Window) : Bool := decide (w.min ≤ w.max) && decide (w.max ≤ 2 ^ 32 - 1)

/-- P1 -/
def Config.widthsOk (c : Config) : Bool := decide (c.codeW = 32) && decide (c.nbits = 32) && decide (c.tickW = 32)

/-- P2 -/
def Config.edgeCapOk (c : Config) : Bool := decide (1 ≤ c.edgeCap) && decide (c.edgeCap < 2 ^ c.cntW)

/-- P3 -/
def Config.windowsOk (c : Config) : Bool :=
  c.wPS.wf && c.wPP.wf && c.wRP.wf && c.wSS.wf && c.wS0.wf && c.wS1.wf

/-- P4 -/
def Config.timeoutOk (c : Config) : Bool := decide (1 ≤ c.rxTimeoutTicks) && decide (c.rxTimeoutTicks ≤ 2 ^ 32 - 1)

/-- A phase length in `1 .. 2^TXCNT_W - 1`. -/
def Config.phaseOk (c : Config) (len : Nat) : Bool := decide (1 ≤ len) && decide (len ≤ 2 ^ c.txcntW - 1)

/-- P5 -/
def Config.onPhasesOk (c : Config) : Bool := c.phaseOk c.nP && c.phaseOk c.n0 && c.phaseOk c.n1 && c.phaseOk c.nE

/-- P6 -/
def Config.offPhasesOk (c : Config) : Bool := c.phaseOk c.mP && c.phaseOk c.m0 && c.phaseOk c.m1

/-- P7 -/
def Config.epilogueOffOk (c : Config) : Bool := decide (c.mE ≤ 2 ^ c.txcntW - 1)

/-- R254: a configuration that violates any constraint is refused. -/
def Config.wf (c : Config) : Bool :=
  c.widthsOk && c.edgeCapOk && c.windowsOk && c.timeoutOk && c.onPhasesOk && c.offPhasesOk && c.epilogueOffOk

/-- R82, R83: every opcode is a command and every operand value is allowed. -/
def Instr.wf : Instr → Bool
  | .nop => true
  | .rxEnable => true
  | .rxDisable => true
  | .rxResultClear => true
  | .txSetCode _ => true
  | .reserved5 => true
  | .reserved6 => true
  | .reserved7 => true

end Sys2Proof
end

