-- ==== Sys2Proof/Machine/Ops.lean ====
section
/-! DEFINITION. The named operations: modular arithmetic (00_scope.md R10), the window test (R13), the edge buffer
(R12, 20_memory.md), the inputs of a cycle, and reset (70_reset_and_hazards.md R250). The block takes no exception
(60_exceptions.md R220, R224), so there is no exception entry and no return; reset is the one event that overrides the
rules of a cycle. -/

namespace Sys2Proof.Machine

/-- `sub_32(a, b)` (R10). -/
def sub32 (a b : Tick) : Tick := a - b

/-- `a + k` on a register of `w` bits (R10). -/
def addMod (w a k : Nat) : Nat := (a + k) % 2 ^ w

/-- `a - b` on registers of `w` bits (R10). -/
def subMod (w a b : Nat) : Nat := (a + (2 ^ w - b % 2 ^ w)) % 2 ^ w

/-- `in_win(v, W)` (R13). -/
def inWin (v : Tick) (w : Window) : Bool := decide (w.min ≤ v.toNat) && decide (v.toNat ≤ w.max)

/-- The value written to entry `i`, if it was ever written. -/
def Memory.entry : Memory → Nat → Option Tick
  | [], _ => none
  | (j, v) :: m, i => if j = i then some v else Memory.entry m i

/-- `EB[i] <- v` (R12), keeping the indices rising. -/
def Memory.write : Memory → Nat → Tick → Memory
  | [], i, v => [(i, v)]
  | (j, x) :: m, i, v =>
    if i < j then (i, v) :: (j, x) :: m
    else if i = j then (i, v) :: m
    else (j, x) :: Memory.write m i v

/-- What entry `i` holds: the value written to it, or its unknown power-on contents (R253). -/
def Memory.value (m : Memory) (i : Nat) : Tick :=
  match m.entry i with
  | some v => v
  | none => Config.powerOnEntry i

/-- `EB[i]` (R12), in a buffer of `cap` entries. -/
def readEntry (cap : Nat) (m : Memory) (i : Nat) : Except Fault Tick :=
  if i < cap then .ok (m.value i) else .error .noSuchEntry

/-- The input ports of this cycle: the first ones listed, or whatever the platform drives (R20). -/
def State.sampled (s : State) : PortIn :=
  match s.inputs with
  | p :: _ => p
  | [] => Config.freePort s.freeIdx

/-- The inputs of the cycles after this one. -/
def State.laterInputs (s : State) : List PortIn := s.inputs.tail

/-- The number of unlisted cycles after this one. -/
def State.nextFreeIdx (s : State) : Nat :=
  match s.inputs with
  | _ :: _ => s.freeIdx
  | [] => s.freeIdx + 1

/-- A cycle with `rst = 1` (R250): every register but `EB` takes its reset value; `EB` keeps its entries (R253). -/
def State.afterReset (s : State) : State :=
  { State.reset with cfg := s.cfg, eb := s.eb, inputs := s.laterInputs, freeIdx := s.nextFreeIdx }

end Sys2Proof.Machine
end

