-- ==== Sys2Proof/Machine/Decoder.lean ====
section
/-! DEFINITION. The NEC decoder, 40_decoder.md: start, halting, one transition (R100 to R116), and the functional form
of a whole decode (R117, R124). -/

namespace Sys2Proof.Machine

/-- R104: the cursor at the start of a decode of `n` edges. -/
def decoderStart (n : Nat) : DecoderRegs :=
  { st := .idle, pos := 0, n := n, bits := 0, code := 0, rep := false }

/-- `d_n - d_pos`, the edges remaining (R103), modulo the width where the cursor is past its edges (log entry 11). -/
def edgesRemaining (c : Config) (d : DecoderRegs) : Nat := subMod c.cntW d.n d.pos

/-- R103 (and R111 for its second half). -/
def halted (c : Config) (d : DecoderRegs) : Bool :=
  decide (edgesRemaining c d < 2) || (d.st == .symSil && d.bits == 0)

/-- The cursor moved past `k` edges (R32). -/
def advancePos (c : Config) (d : DecoderRegs) (k : Nat) : Nat := addMod c.cntW d.pos k

/-- R106, R107. -/
def fireIdle (c : Config) (iv : Tick) (d : DecoderRegs) : DecoderRegs :=
  if inWin iv c.wPS then { d with st := .init, pos := advancePos c d 1 }
  else { d with pos := advancePos c d 2 }

/-- R108, R109, R110: `W_PP` is tested before `W_RP` (R102). -/
def fireInit (c : Config) (iv : Tick) (d : DecoderRegs) : DecoderRegs :=
  if inWin iv c.wPP then { d with st := .symSil, pos := advancePos c d 1, bits := 32, rep := false }
  else if inWin iv c.wRP then { d with st := .symSil, pos := advancePos c d 1, bits := 0, rep := true }
  else { d with st := .idle, pos := advancePos c d 1 }

/-- R111, R112, R113. -/
def fireSymSil (c : Config) (iv : Tick) (d : DecoderRegs) : DecoderRegs :=
  if d.bits = 0 then d
  else if inWin iv c.wSS then { d with st := .symPul, pos := advancePos c d 1 }
  else { d with st := .idle, code := 0 }

/-- The code with one more bit received (R91). -/
def appendBit (code : Code) (b : Bool) : Code := (code <<< 1) ||| (if b then 1 else 0)

/-- R114, R115, R116: `W_S0` is tested before `W_S1` (R102). -/
def fireSymPul (c : Config) (iv : Tick) (d : DecoderRegs) : DecoderRegs :=
  if inWin iv c.wS0 then
    { d with st := .symSil, pos := advancePos c d 1, bits := d.bits - 1, code := appendBit d.code false }
  else if inWin iv c.wS1 then
    { d with st := .symSil, pos := advancePos c d 1, bits := d.bits - 1, code := appendBit d.code true }
  else { d with st := .idle, pos := advancePos c d 1, code := 0 }

/-- The transition the state selects, on the interval `iv` (R105). -/
def fire (c : Config) (iv : Tick) (d : DecoderRegs) : DecoderRegs :=
  match d.st with
  | .idle => fireIdle c iv d
  | .init => fireInit c iv d
  | .symSil => fireSymSil c iv d
  | .symPul => fireSymPul c iv d

/-- R101: the two entries read and their modular difference. -/
def interval (c : Config) (eb : Memory) (d : DecoderRegs) : Except Fault Tick :=
  match readEntry c.edgeCap eb d.pos, readEntry c.edgeCap eb (advancePos c d 1) with
  | .ok a, .ok b => .ok (sub32 b a)
  | .error f, _ => .error f
  | .ok _, .error f => .error f

/-- One transition on the interval at the cursor (R101, R105). -/
def decoderFires (c : Config) (eb : Memory) (d : DecoderRegs) : Except Fault DecoderRegs :=
  match interval c eb d with
  | .ok iv => .ok (fire c iv d)
  | .error f => .error f

/-- Transitions until halted, at most `fuel` of them, with their number (R124). -/
def decoderRun (c : Config) (eb : Memory) : Nat → DecoderRegs → Except Fault (DecoderRegs × Nat)
  | 0, d => .ok (d, 0)
  | fuel + 1, d =>
    if halted c d then .ok (d, 0)
    else
      match decoderFires c eb d with
      | .ok d' =>
        match decoderRun c eb fuel d' with
        | .ok (e, t) => .ok (e, t + 1)
        | .error f => .error f
      | .error f => .error f

/-- The halted cursor of a decode of the first `n` entries and the number of its transitions; R123 bounds them by
`2 * n` (R104, R124). -/
def decodeHalted (c : Config) (eb : Memory) (n : Nat) : Except Fault (DecoderRegs × Nat) :=
  decoderRun c eb (2 * n) (decoderStart n)

/-- R100, R117: the decoder's result, `(code, is_repetition)`. -/
def necDecode (c : Config) (eb : Memory) (n : Nat) : Except Fault (Code × Bool) :=
  match decodeHalted c eb n with
  | .ok (d, _) => .ok (d.code, d.rep)
  | .error f => .error f

end Sys2Proof.Machine
end

