-- ==== Sys2Proof/Machine/Flags.lean ====
section
/-! DEFINITION. The block's two flags, `res_rep` and `res_err` (10_state.md R30), as a completed decode sets them, and
the one-shot state derived from them. There are no arithmetic flags (R30). -/

namespace Sys2Proof.Machine

/-- `res_err`: code 0 without repetition (41_session.md R147, R148). -/
def errorFlag (code : Code) (rep : Bool) : Bool := code == 0 && !rep

/-- The three result registers a completed decode exposes (R147). -/
def resultOf (d : DecoderRegs) : ResultRegs :=
  { code := d.code, rep := d.rep, err := errorFlag d.code d.rep }

/-- `rx_result_pending_o` (R151). -/
def resultPending (r : ResultRegs) : Bool := r.code != 0 || r.rep || r.err

end Sys2Proof.Machine
end

