-- ==== Sys2Proof/Decode.lean ====
section
/-! DEFINITION. Decoding and encoding the host command word (30_encoding.md R80 to R83), the opcode table as data, and
the assembler (R93, R94). -/

namespace Sys2Proof

/-- `word[34:32]` (R80). -/
def CmdWord.op (w : CmdWord) : BitVec 3 := w.extractLsb' 32 3

/-- `word[31:0]` (R80). -/
def CmdWord.data (w : CmdWord) : BitVec 32 := w.extractLsb' 0 32

/-- `(op, data)` as one word, the opcode in the more significant bits (R80, R9). -/
def CmdWord.make (op : BitVec 3) (data : BitVec 32) : CmdWord := op ++ data

/-- The opcode map of R81. Every opcode has a meaning, so every word of 35 bits decodes; the operand is dropped where
the command ignores it (R82). -/
def decodeFields (op : BitVec 3) (data : BitVec 32) : Instr :=
  if op = 0 then .nop
  else if op = 1 then .rxEnable
  else if op = 2 then .rxDisable
  else if op = 3 then .rxResultClear
  else if op = 4 then .txSetCode data
  else if op = 5 then .reserved5
  else if op = 6 then .reserved6
  else .reserved7

def decode (w : CmdWord) : Instr := decodeFields w.op w.data

/-- Why bits are no command word. -/
inductive DecodeReject where
  /-- A bit above bit 34 is set: the command port has 35 bits (R80; log entry 7). -/
  | bitsAbove34
  deriving DecidableEq, Repr

/-- Decoding of a number of any size: a command word has exactly the bits 34:0 (R80). -/
def decodeWord (w : Nat) : Except DecodeReject Instr :=
  if w < 2 ^ 35 then .ok (decode (BitVec.ofNat 35 w)) else .error .bitsAbove34

/-- The instruction of a table word of `nbits` bits, the bits above them 0. -/
def decodeTableWord (nbits w : Nat) : Option Instr :=
  match decodeWord (w % 2 ^ nbits) with
  | .ok i => some i
  | .error _ => none

/-- The opcode of R81. -/
def Instr.opcode : Instr → BitVec 3
  | .nop => 0
  | .rxEnable => 1
  | .rxDisable => 2
  | .rxResultClear => 3
  | .txSetCode _ => 4
  | .reserved5 => 5
  | .reserved6 => 6
  | .reserved7 => 7

/-- The operand field: the code of `TX_SET_CODE`, 0 for the operand-less commands (R82, R93). -/
def Instr.operand : Instr → BitVec 32
  | .nop => 0
  | .rxEnable => 0
  | .rxDisable => 0
  | .rxResultClear => 0
  | .txSetCode code => code
  | .reserved5 => 0
  | .reserved6 => 0
  | .reserved7 => 0

/-- The 35-bit word a line assembles to (R93). -/
def encode (i : Instr) : CmdWord := CmdWord.make i.opcode i.operand

/-- A row of the opcode map R81: a word is the row's when its bits under `mask` are `word`. -/
structure OpRow where
  mnemonic : String
  word : CmdWord
  mask : CmdWord
  deriving DecidableEq, Repr

def OpRow.matches (r : OpRow) (w : CmdWord) : Bool := w &&& r.mask == r.word

/-- R81's table, in its order. -/
def opcodeTable : List OpRow :=
  [⟨"NOP", 0x000000000, 0x700000000⟩,
   ⟨"RX_ENABLE", 0x100000000, 0x700000000⟩,
   ⟨"RX_DISABLE", 0x200000000, 0x700000000⟩,
   ⟨"RX_RESULT_CLEAR", 0x300000000, 0x700000000⟩,
   ⟨"TX_SET_CODE", 0x400000000, 0x700000000⟩,
   ⟨"RESERVED_5", 0x500000000, 0x700000000⟩,
   ⟨"RESERVED_6", 0x600000000, 0x700000000⟩,
   ⟨"RESERVED_7", 0x700000000, 0x700000000⟩]

/-- The row's name of an instruction (R81; the reserved rows as opcode_table.json names them). -/
def Instr.mnemonic : Instr → String
  | .nop => "NOP"
  | .rxEnable => "RX_ENABLE"
  | .rxDisable => "RX_DISABLE"
  | .rxResultClear => "RX_RESULT_CLEAR"
  | .txSetCode _ => "TX_SET_CODE"
  | .reserved5 => "RESERVED_5"
  | .reserved6 => "RESERVED_6"
  | .reserved7 => "RESERVED_7"

/-- The commands a line stands for, one a cycle: `RX_RESTART` is `RX_DISABLE` and then `RX_ENABLE` (R94). -/
def AsmLine.expand : AsmLine → List Instr
  | .command i => [i]
  | .rxRestart => [.rxDisable, .rxEnable]

/-- The words a program assembles to (R93, R94). -/
def assemble (lines : List AsmLine) : List CmdWord := lines.flatMap fun l => l.expand.map encode

/-- The digits of a hexadecimal literal (R9), each at the index that is its value. -/
def hexDigits : List Char := ['0', '1', '2', '3', '4', '5', '6', '7', '8', '9', 'A', 'B', 'C', 'D', 'E', 'F']

/-- The value of a hexadecimal digit of either case. -/
def hexDigit? (c : Char) : Option Nat := hexDigits.idxOf? c.toUpper

/-- The number that digit values write, the most significant first. -/
def ofHexDigits (values : List Nat) : Nat := values.foldl (fun n v => 16 * n + v) 0

/-- A hexadecimal literal `0x…` of at most 32 bits (R9, R93; log entry 14). -/
def hexCode? : List Char → Option Code
  | '0' :: 'x' :: d :: ds =>
    ((d :: ds).mapM hexDigit?).bind fun values =>
      if ofHexDigits values < 2 ^ 32 then some (BitVec.ofNat 32 (ofHexDigits values)) else none
  | _ => none

/-- The line written as these blank-separated tokens (R93, R94; log entry 14). -/
def parseTokens (tokens : List String) : Option AsmLine :=
  match tokens with
  | [m] =>
    if m = "NOP" then some (.command .nop)
    else if m = "RX_ENABLE" then some (.command .rxEnable)
    else if m = "RX_DISABLE" then some (.command .rxDisable)
    else if m = "RX_RESULT_CLEAR" then some (.command .rxResultClear)
    else if m = "RX_RESTART" then some .rxRestart
    else none
  | [m, x] => if m = "TX_SET_CODE" then (hexCode? x.toList).map fun c => .command (.txSetCode c) else none
  | _ => none

end Sys2Proof
end

