-- ==== Sys2Proof/Machine/Operands.lean ====
section
/-! DEFINITION. The command port: the word it presents (30_encoding.md R80) and the command strobes `cmd(OP)` that the
other rules read (00_scope.md R14). -/

namespace Sys2Proof.Machine

/-- `(cmd_op_i, cmd_data_i)` as one word (R80). -/
def commandWord (p : PortIn) : CmdWord := CmdWord.make p.cmdOp p.cmdData

/-- The command presented, if `cmd_valid_i = 1` (R80: with `cmd_valid_i = 0` the other two inputs are ignored). -/
def command? (p : PortIn) : Option Instr := if p.cmdValid then some (decode (commandWord p)) else none

/-- Which of the commands that other rules test is executed in a cycle, `cmd(OP)` of R14. -/
structure CmdStrobes where
  rxEnable : Bool
  rxDisable : Bool
  rxResultClear : Bool
  txSetCode : Option Code
  deriving DecidableEq, Repr

/-- No command, `NOP` or a reserved opcode (R201, R206). -/
def CmdStrobes.none : CmdStrobes :=
  { rxEnable := false, rxDisable := false, rxResultClear := false, txSetCode := Option.none }

end Sys2Proof.Machine
end

