-- ==== Sys2Proof/Machine/Session.lean ====
section
/-! DEFINITION. The receive session, 41_session.md R137 to R150: which of its transitions fires in a cycle, and the
next values of the registers it owns. Every function reads start-of-cycle values only (00_scope.md R11). -/

namespace Sys2Proof.Machine

/-- R137 fires. -/
def enableFires (k : CmdStrobes) (s : State) : Bool := s.ses.st == .off && k.rxEnable

/-- R138, R141 or R145 fires. -/
def disableFires (k : CmdStrobes) (s : State) : Bool := s.ses.st != .off && k.rxDisable

/-- "the live edge count changes versus last observed" (R139, R142). -/
def countChanged (s : State) : Bool := s.edgeCount != s.ses.lastCount

/-- The timeout comparison of R143 and R144. -/
def timeoutExpired (s : State) : Bool :=
  decide (s.cfg.rxTimeoutTicks ≤ (sub32 s.rxTime s.ses.lastAct).toNat)

/-- R143 fires: a decode starts. -/
def timeoutFires (k : CmdStrobes) (s : State) : Bool :=
  s.ses.st == .wait && !k.rxDisable && !countChanged s && timeoutExpired s

/-- R146 fires: the decoder makes one transition. -/
def decodeRuns (k : CmdStrobes) (s : State) : Bool :=
  s.ses.st == .decode && !k.rxDisable && !halted s.cfg s.dec

/-- R147 fires: the decode is done. -/
def decodeDone (k : CmdStrobes) (s : State) : Bool :=
  s.ses.st == .decode && !k.rxDisable && halted s.cfg s.dec

/-- The session leaves for `OFF`; nothing else of it changes (R138, R141, R145). -/
def sessionOff (s : State) : SessionRegs := { s.ses with st := .off }

/-- The session records the new count and the time, and is in `WAIT` (R139, R142). -/
def sessionActivity (s : State) : SessionRegs :=
  { st := .wait, lastCount := s.edgeCount, lastAct := s.rxTime }

/-- R137, or stay. -/
def nextSesOff (k : CmdStrobes) (s : State) : SessionRegs :=
  if k.rxEnable then { s.ses with st := .idle, lastCount := 0 } else s.ses

/-- R138, R139, R140, in the order of R150. -/
def nextSesIdle (k : CmdStrobes) (s : State) : SessionRegs :=
  if k.rxDisable then sessionOff s
  else if countChanged s then sessionActivity s
  else s.ses

/-- R141, R142, R143, R144, in the order of R150. -/
def nextSesWait (k : CmdStrobes) (s : State) : SessionRegs :=
  if k.rxDisable then sessionOff s
  else if countChanged s then sessionActivity s
  else if timeoutExpired s then { s.ses with st := .decode }
  else s.ses

/-- R145, R147, R146, in the order of R150. -/
def nextSesDecode (k : CmdStrobes) (s : State) : SessionRegs :=
  if k.rxDisable then sessionOff s
  else if halted s.cfg s.dec then { s.ses with st := .idle, lastCount := 0 }
  else s.ses

/-- The session's registers in the next cycle. -/
def nextSes (k : CmdStrobes) (s : State) : SessionRegs :=
  match s.ses.st with
  | .off => nextSesOff k s
  | .idle => nextSesIdle k s
  | .wait => nextSesWait k s
  | .decode => nextSesDecode k s

/-- The result registers in the next cycle: R147 before R149 (R150). -/
def nextRes (k : CmdStrobes) (s : State) : ResultRegs :=
  if decodeDone k s then resultOf s.dec
  else if k.rxResultClear then ResultRegs.empty
  else s.res

/-- The decoder's registers in the next cycle: started by R143, moved by R146, else held (R105). -/
def nextDec (k : CmdStrobes) (s : State) : Except Fault DecoderRegs :=
  if timeoutFires k s then .ok (decoderStart s.edgeCount)
  else if decodeRuns k s then decoderFires s.cfg s.eb s.dec
  else .ok s.dec

end Sys2Proof.Machine
end

