-- ==== Sys2Proof/Machine/Capture.lean ====
section
/-! DEFINITION. Edge capture and the receive timer, 41_session.md R130 to R136, and the edge count that capture and the
session share (10_state.md R25). -/

namespace Sys2Proof.Machine

/-- R130, R131: the synchroniser and the previous level, whatever the session state. -/
def nextLine (p : PortIn) (s : State) : LineRegs := { s1 := p.irRx, s2 := s.line.s1, prev := s.line.s2 }

/-- R131: an edge is detected in this cycle. -/
def edgeDetected (s : State) : Bool := s.line.s2 != s.line.prev

/-- R131: the edge detected is a falling one. -/
def edgeFalling (s : State) : Bool := edgeDetected s && !s.line.s2

/-- R132. -/
def captureEnabled (s : State) : Bool := s.ses.st == .idle || s.ses.st == .wait

/-- R133 writes an entry; at `EDGE_CAP` the edge is dropped (R134). -/
def captureFires (s : State) : Bool :=
  captureEnabled s && edgeDetected s && decide (s.edgeCount < s.cfg.edgeCap)

/-- The edge buffer in the next cycle (R133, R134). -/
def nextEb (s : State) : Memory :=
  if captureFires s then s.eb.write s.edgeCount s.rxTime else s.eb

/-- `edge_count` in the next cycle: cleared by R137 and R147, counted up by R133. -/
def nextEdgeCount (k : CmdStrobes) (s : State) : Nat :=
  if enableFires k s || decodeDone k s then 0
  else if captureFires s then addMod s.cfg.cntW s.edgeCount 1
  else s.edgeCount

/-- `rx_time` in the next cycle: cleared by R136, counted by R135. -/
def nextRxTime (k : CmdStrobes) (p : PortIn) (s : State) : Tick :=
  if enableFires k s then 0
  else if s.ses.st != .off && p.rxTick then s.rxTime + 1
  else s.rxTime

end Sys2Proof.Machine
end

