-- ==== Sys2Proof/Machine/Encoder.lean ====
section
/-! DEFINITION. The NEC encoder, 42_encoder.md: burst lengths and symbols (R170, R171, 30_encoding.md R84), its
transitions (R172 to R180) and the pending command (43_host_commands.md R205). -/

namespace Sys2Proof.Machine

/-- Bit `32 - s` of the code, the one symbol `s` in `1 .. 32` carries (R84). -/
def symbolBit (code : Code) (s : Fin 34) : Bool := code.getLsbD (32 - s.val)

/-- `N(s)`, the ON length of symbol `s` of the code (R170). -/
def burstOn (c : Config) (code : Code) (s : Fin 34) : Nat :=
  if s.val = 0 then c.nP
  else if s.val = 33 then c.nE
  else if symbolBit code s then c.n1
  else c.n0

/-- `M(s)`, the OFF length of symbol `s` of the code (R170). -/
def burstOff (c : Config) (code : Code) (s : Fin 34) : Nat :=
  if s.val = 0 then c.mP
  else if s.val = 33 then c.mE
  else if symbolBit code s then c.m1
  else c.m0

/-- The 34 bursts of a full frame in order, each `(ON, OFF)` in symbol ticks (R84, R171). -/
def frameBursts (c : Config) (code : Code) : List (Nat × Nat) :=
  (List.finRange 34).map fun s => (burstOn c code s, burstOff c code s)

/-- Symbol ticks of carrier ON in one transmission (R184). -/
def frameOnTicks (c : Config) (code : Code) : Nat := ((frameBursts c code).map Prod.fst).sum

/-- Symbol ticks of one whole transmission (R184). -/
def frameTicks (c : Config) (code : Code) : Nat := ((frameBursts c code).map fun b => b.1 + b.2).sum

/-- R172: the encoder as a transmission of `code` starts. -/
def encoderStart (c : Config) (code : Code) : EncoderRegs :=
  { st := .on, shift := code, sym := 0, cnt := c.nP }

/-- R179, R180: on to the next symbol, or to `TX_IDLE` after the epilogue. -/
def encoderAdvance (c : Config) (e : EncoderRegs) : EncoderRegs :=
  if h : e.sym.val < 33 then
    { e with st := .on, sym := ⟨e.sym.val + 1, by omega⟩, cnt := burstOn c e.shift ⟨e.sym.val + 1, by omega⟩ }
  else { e with st := .idle }

/-- A symbol tick in `TX_ON`: R174, R175, R176. -/
def tickOn (c : Config) (e : EncoderRegs) : EncoderRegs :=
  if 1 < e.cnt then { e with cnt := e.cnt - 1 }
  else if 0 < burstOff c e.shift e.sym then { e with st := .off, cnt := burstOff c e.shift e.sym }
  else encoderAdvance c e

/-- A symbol tick in `TX_OFF`: R177, R178. -/
def tickOff (c : Config) (e : EncoderRegs) : EncoderRegs :=
  if 1 < e.cnt then { e with cnt := e.cnt - 1 } else encoderAdvance c e

/-- A symbol tick in any state; in `TX_IDLE` it counts for nothing (R226). -/
def encoderTick (c : Config) (e : EncoderRegs) : EncoderRegs :=
  match e.st with
  | .idle => e
  | .on => tickOn c e
  | .off => tickOff c e

/-- R172 fires: the pending code is consumed. -/
def startFires (s : State) : Bool := s.tx.st == .idle && s.txPending != 0

/-- The encoder in the next cycle (R172 to R180). -/
def nextTx (p : PortIn) (s : State) : EncoderRegs :=
  if startFires s then encoderStart s.cfg s.txPending
  else if p.symTick then encoderTick s.cfg s.tx
  else s.tx

/-- `TX_SET_CODE` finds the empty sentinel (R205). -/
def setCodeTaken (k : CmdStrobes) (s : State) : Option Code :=
  if s.txPending = 0 then k.txSetCode else none

/-- `tx_pending` in the next cycle: emptied by R172, written by an accepted `TX_SET_CODE` (R205). -/
def nextPending (k : CmdStrobes) (s : State) : Code :=
  if startFires s then 0
  else
    match setCodeTaken k s with
    | some code => code
    | none => s.txPending

end Sys2Proof.Machine
end

