-- ==== Sys2Proof/Machine/Cycle.lean ====
section
/-! DEFINITION. One clock cycle: every part advances at the same edge, from start-of-cycle values (00_scope.md R11,
20_memory.md R70), under reset's priority (70_reset_and_hazards.md R250). -/

namespace Sys2Proof.Machine

/-- The registers after the edge, given the decoder's. -/
def State.afterCycle (k : CmdStrobes) (s : State) (d : DecoderRegs) : State :=
  { cfg := s.cfg
    line := nextLine s.sampled s
    rxTime := nextRxTime k s.sampled s
    edgeCount := nextEdgeCount k s
    eb := nextEb s
    ses := nextSes k s
    res := nextRes k s
    dec := d
    txPending := nextPending k s
    tx := nextTx s.sampled s
    inputs := s.laterInputs
    freeIdx := s.nextFreeIdx }

/-- A cycle in which the commands `k` are executed. A configuration that violates R254 is refused; `rst = 1` overrides
every rule and drops the command (R200, R250). -/
def clockCycle (k : CmdStrobes) (s : State) : Host.Outcome State Fault Refusal :=
  if s.cfg.wf then
    if s.sampled.rst then .next s.afterReset
    else
      match nextDec k s with
      | .ok d => .next (s.afterCycle k d)
      | .error f => .fault f
  else .refused .badConfig

end Sys2Proof.Machine
end

