-- ==== Sys2Proof/Machine/Commands.lean ====
section
/-! DEFINITION. The meanings of the host commands, 43_host_commands.md: each is the clock cycle in which it is
presented (R200). -/

namespace Sys2Proof.Machine

/-- R201. -/
def execNop (s : State) : Host.Outcome State Fault Refusal := clockCycle CmdStrobes.none s

/-- R202. -/
def execRxEnable (s : State) : Host.Outcome State Fault Refusal :=
  clockCycle { CmdStrobes.none with rxEnable := true } s

/-- R203. -/
def execRxDisable (s : State) : Host.Outcome State Fault Refusal :=
  clockCycle { CmdStrobes.none with rxDisable := true } s

/-- R204. -/
def execRxResultClear (s : State) : Host.Outcome State Fault Refusal :=
  clockCycle { CmdStrobes.none with rxResultClear := true } s

/-- R205. -/
def execTxSetCode (code : Code) (s : State) : Host.Outcome State Fault Refusal :=
  clockCycle { CmdStrobes.none with txSetCode := some code } s

/-- R206, opcode 5. -/
def execReserved5 (s : State) : Host.Outcome State Fault Refusal := clockCycle CmdStrobes.none s

/-- R206, opcode 6. -/
def execReserved6 (s : State) : Host.Outcome State Fault Refusal := clockCycle CmdStrobes.none s

/-- R206, opcode 7. -/
def execReserved7 (s : State) : Host.Outcome State Fault Refusal := clockCycle CmdStrobes.none s

end Sys2Proof.Machine
end

