-- ==== Sys2Proof/Machine/Step.lean ====
section
/-! DEFINITION. One step: one clock cycle, with the command the port presents in it (43_host_commands.md R200). -/

namespace Sys2Proof.Machine

/-- With `cmd_valid_i = 0` the cycle runs without a command (R80, R201); else it runs the command presented. -/
def step (s : State) : Host.Outcome State Fault Refusal :=
  match command? s.sampled with
  | some i => exec i s
  | none => clockCycle CmdStrobes.none s

/-- The state whose next cycle presents the command word `w` on the port: the other inputs of that cycle as they are
listed, or quiet where none is (log entry 4). -/
def State.withFetchWord (s : State) (nbits w : Nat) : State :=
  { s with
    inputs :=
      { s.inputs.headD PortIn.quiet with
        rst := false
        cmdValid := true
        cmdOp := (BitVec.ofNat 35 (w % 2 ^ nbits)).extractLsb' 32 3
        cmdData := (BitVec.ofNat 35 (w % 2 ^ nbits)).extractLsb' 0 32 } :: s.inputs.tail }

end Sys2Proof.Machine
end

