-- ==== Sys2Proof/Machine/Outputs.lean ====
section
/-! DEFINITION. The output ports of 10_state.md R21, functions of the registers only, with the state codes of
30_encoding.md R89. -/

namespace Sys2Proof.Machine

/-- `rx_state_o` (R89). -/
def RsState.code : RsState → BitVec 2
  | .off => 0
  | .idle => 1
  | .wait => 2
  | .decode => 3

/-- The code of `d_st` (R89). -/
def DState.code : DState → BitVec 2
  | .idle => 0
  | .init => 1
  | .symSil => 2
  | .symPul => 3

/-- `tx_state_o` (R89). -/
def TxState.code : TxState → BitVec 2
  | .idle => 0
  | .on => 1
  | .off => 2

/-- R181. -/
def carrierEn (s : State) : Bool := s.tx.st == .on

/-- R182. -/
def symTimerRun (s : State) : Bool := s.tx.st != .idle

/-- R135. -/
def rxTimerRun (s : State) : Bool := s.ses.st != .off

/-- R183. -/
def txActive (s : State) : Bool := s.tx.st != .idle

/-- R33: a code waits. -/
def txPendingOut (s : State) : Bool := s.txPending != 0

/-- R152. -/
def rxActive (s : State) : Bool := s.ses.st == .wait || s.ses.st == .decode

/-- The output ports, under the spec's names without `_o`. `rx_edge_count_o` has `CNT_W` bits. -/
structure PortOut where
  carrierEn : Bool
  symTimerRun : Bool
  rxTimerRun : Bool
  txActive : Bool
  txPending : Bool
  txState : BitVec 2
  rxCode : Code
  rxRep : Bool
  rxErr : Bool
  rxResultPending : Bool
  rxActive : Bool
  rxState : BitVec 2
  rxEdgeCount : Nat
  deriving DecidableEq, Repr

/-- R21. -/
def State.outputs (s : State) : PortOut :=
  { carrierEn := Sys2Proof.Machine.carrierEn s
    symTimerRun := Sys2Proof.Machine.symTimerRun s
    rxTimerRun := Sys2Proof.Machine.rxTimerRun s
    txActive := Sys2Proof.Machine.txActive s
    txPending := txPendingOut s
    txState := s.tx.st.code
    rxCode := s.res.code
    rxRep := s.res.rep
    rxErr := s.res.err
    rxResultPending := resultPending s.res
    rxActive := Sys2Proof.Machine.rxActive s
    rxState := s.ses.st.code
    rxEdgeCount := s.edgeCount }

end Sys2Proof.Machine
end

