-- ==== Sys2Proof/Machine/Bench.lean ====
section
/-! DEFINITION. What drives the block in the spec's programs: the tick source of 70_reset_and_hazards.md R255, the
stimulus directives of 30_encoding.md R95 and the loopback of 42_encoder.md R185. It is outside the block: it lists the
inputs of one cycle and takes the machine's step (log entries 12 and 13). -/

namespace Sys2Proof.Machine

/-- The strobe periods in clock cycles, `CLK_PER_RX_TICK` and `CLK_PER_SYM_TICK`, and the free-running phase of the
receive strobe, which R255 leaves open. -/
structure TickSource where
  clkPerRxTick : Nat
  clkPerSymTick : Nat
  rxPhase : Nat
  deriving DecidableEq, Repr

/-- R255, R276: both periods are at least 1. -/
def TickSource.wf (t : TickSource) : Bool := decide (1 ≤ t.clkPerRxTick) && decide (1 ≤ t.clkPerSymTick)

/-- `rx_tick_i` in a cycle: once every `CLK_PER_RX_TICK` cycles (R255). -/
def TickSource.rxTick (t : TickSource) (cycle : Nat) : Bool :=
  decide ((cycle + t.rxPhase) % t.clkPerRxTick = t.clkPerRxTick - 1)

/-- `sym_tick_i` in the cycle `age` cycles after the run of `sym_timer_run_o = 1` began: in `c0 + j * P - 1` (R255). -/
def TickSource.symTick (t : TickSource) (running : Bool) (age : Nat) : Bool :=
  running && decide ((age + 1) % t.clkPerSymTick = 0)

/-- The output ports a program can name (R21). -/
inductive OutPort where
  | carrierEn
  | symTimerRun
  | rxTimerRun
  | txActive
  | txPending
  | txState
  | rxCode
  | rxRep
  | rxErr
  | rxResultPending
  | rxActive
  | rxState
  | rxEdgeCount
  deriving DecidableEq, Repr

/-- The value on an output port, as an unsigned number. -/
def PortOut.value (o : PortOut) : OutPort → Nat
  | .carrierEn => o.carrierEn.toNat
  | .symTimerRun => o.symTimerRun.toNat
  | .rxTimerRun => o.rxTimerRun.toNat
  | .txActive => o.txActive.toNat
  | .txPending => o.txPending.toNat
  | .txState => o.txState.toNat
  | .rxCode => o.rxCode.toNat
  | .rxRep => o.rxRep.toNat
  | .rxErr => o.rxErr.toNat
  | .rxResultPending => o.rxResultPending.toNat
  | .rxActive => o.rxActive.toNat
  | .rxState => o.rxState.toNat
  | .rxEdgeCount => o.rxEdgeCount

/-- A line of a test program: a command line (R93, R94) or a directive (R95). `reset` and `loopback` are the
`(rst = 1)` and `LOOPBACK` of 95_test_vectors.md section 0. -/
inductive Directive where
  | command (l : AsmLine)
  | atCycle (cycle : Nat)
  | ir (level : Bool) (cycle : Nat)
  | ticks (rx sym : Nat)
  | waitCycles (n : Nat)
  | expect (port : OutPort) (value : Nat)
  | reset
  | loopback
  deriving DecidableEq, Repr

/-- What a program does to the block, cycle by cycle. -/
structure Bench where
  ticks : TickSource
  loopback : Bool
  /-- the cycles with `rst = 1` -/
  resets : List Nat
  /-- `IR` directives, in the program's order -/
  levels : List (Nat × Bool)
  /-- the commands, each with the cycle it is presented in -/
  commands : List (Nat × Instr)
  /-- `EXPECT` directives, each with the cycle it is checked in -/
  expects : List (Nat × OutPort × Nat)
  /-- the cycle of the program's next command -/
  next : Nat
  deriving DecidableEq, Repr

/-- Before any directive: strobes of period 1, the line at 1, nothing presented. -/
def Bench.empty : Bench :=
  { ticks := { clkPerRxTick := 1, clkPerSymTick := 1, rxPhase := 0 }, loopback := false, resets := [], levels := [],
    commands := [], expects := [], next := 0 }

/-- The commands presented one a cycle from cycle `c` on. -/
def numbered : Nat → List Instr → List (Nat × Instr)
  | _, [] => []
  | c, i :: is => (c, i) :: numbered (c + 1) is

/-- The meaning of one directive (R95). DESIGN CHOICE (log entry 13), where R95 gives no position or order: the last
`TICKS` of a program sets the strobe periods of every cycle from cycle 0 on, wherever it stands, and `LOOPBACK`
anywhere holds in every cycle. -/
def Bench.add (b : Bench) : Directive → Bench
  | .command l => { b with commands := b.commands ++ numbered b.next l.expand, next := b.next + l.expand.length }
  | .atCycle c => { b with next := c }
  | .ir level c => { b with levels := b.levels ++ [(c, level)] }
  | .ticks rx sym => { b with ticks := { b.ticks with clkPerRxTick := rx, clkPerSymTick := sym } }
  | .waitCycles n => { b with next := b.next + n }
  | .expect p v => { b with expects := b.expects ++ [(b.next, p, v)] }
  | .reset => { b with resets := b.resets ++ [b.next], next := b.next + 1 }
  | .loopback => { b with loopback := true }

def Bench.ofProgram (lines : List Directive) : Bench := lines.foldl Bench.add Bench.empty

/-- The level the `IR` directives drive in a cycle: the last one in the program's order that has begun (log entry 13), 1
before the first. -/
def Bench.level (b : Bench) (cycle : Nat) : Bool :=
  b.levels.foldl (fun v d => if d.1 ≤ cycle then d.2 else v) true

/-- The command presented in a cycle: the first one, if the program puts several there (log entry 13). -/
def Bench.command? (b : Bench) (cycle : Nat) : Option Instr := (b.commands.find? fun c => c.1 == cycle).map Prod.snd

/-- The block on the bench: the cycle number and the length so far of the run of `sym_timer_run_o = 1`. -/
structure BenchState where
  cycle : Nat
  symAge : Nat
  block : State
  deriving DecidableEq, Repr

/-- The input ports of the bench's current cycle. -/
def Bench.port (b : Bench) (t : BenchState) : PortIn :=
  { rst := b.resets.contains t.cycle
    irRx := if b.loopback then !carrierEn t.block else b.level t.cycle
    rxTick := b.ticks.rxTick t.cycle
    symTick := b.ticks.symTick (symTimerRun t.block) t.symAge
    cmdValid := (b.command? t.cycle).isSome
    cmdOp := match b.command? t.cycle with
      | some i => i.opcode
      | none => 0
    cmdData := match b.command? t.cycle with
      | some i => i.operand
      | none => 0 }

/-- The block with the bench's inputs for this cycle listed. -/
def Bench.driven (b : Bench) (t : BenchState) : State := { t.block with inputs := [b.port t] }

/-- The bench after a cycle that leaves the block in `s`. -/
def BenchState.advance (t : BenchState) (s : State) : BenchState :=
  { cycle := t.cycle + 1, symAge := if symTimerRun t.block then t.symAge + 1 else 0, block := s }

/-- One cycle on the bench. -/
def Bench.step (b : Bench) (t : BenchState) : Host.Outcome BenchState Fault Refusal :=
  match Sys2Proof.Machine.step (b.driven t) with
  | .next s => .next (t.advance s)
  | .fault f => .fault f
  | .refused r => .refused r

/-- `n` cycles on the bench. -/
def Bench.run (b : Bench) : Nat → BenchState → Host.Outcome BenchState Fault Refusal
  | 0, t => .next t
  | n + 1, t =>
    match b.step t with
    | .next t' => b.run n t'
    | .fault f => .fault f
    | .refused r => .refused r

/-- Cycle 0, the block in its reset state (R252). -/
def BenchState.start : BenchState := { cycle := 0, symAge := 0, block := State.reset }

/-- The `EXPECT`s of a cycle hold on the outputs at its start (log entry 13). -/
def Bench.expectsHold (b : Bench) (t : BenchState) : Bool :=
  b.expects.all fun e => e.1 != t.cycle || t.block.outputs.value e.2.1 == e.2.2

end Sys2Proof.Machine
end

