-- ==== Sys2Proof/Machine/Waveform.lean ====
section
/-! DEFINITION. The transmitted waveform as the timing laws of 42_encoder.md see it: what the receiver measures of each
phase (R185, R186, 70_reset_and_hazards.md R269) and the encoder driven by symbol ticks alone (R184). -/

namespace Sys2Proof

/-- `L` symbol ticks measured by the receive timer: rounded down and rounded up, in receive ticks (R185, R269). -/
def Config.ticksFloor (c : Config) (len : Nat) : Nat := len * c.symTickPeriod / c.rxTickPeriod

def Config.ticksCeil (c : Config) (len : Nat) : Nat :=
  (len * c.symTickPeriod + (c.rxTickPeriod - 1)) / c.rxTickPeriod

/-- Every measurement of `len` symbol ticks lies in the window. -/
def Config.measuresIn (c : Config) (len : Nat) (w : Window) : Bool :=
  decide (w.min ≤ c.ticksFloor len) && decide (c.ticksCeil len ≤ w.max)

/-- Every measurement of `len` symbol ticks lies outside the window. -/
def Config.measuresOut (c : Config) (len : Nat) (w : Window) : Bool :=
  decide (c.ticksCeil len < w.min) || decide (w.max < c.ticksFloor len)

/-- `len` symbol ticks are less than the session's timeout (R185 (b)). -/
def Config.belowTimeout (c : Config) (len : Nat) : Bool :=
  decide (len * c.symTickPeriod < c.rxTimeoutTicks * c.rxTickPeriod)

/-- R185 (a). -/
def Config.measuresOk (c : Config) : Bool :=
  decide (1 ≤ c.rxTickPeriod) &&
  c.measuresIn c.nP c.wPS && c.measuresIn c.mP c.wPP && c.measuresIn c.n0 c.wSS && c.measuresIn c.n1 c.wSS &&
    c.measuresIn c.m0 c.wS0 && c.measuresIn c.m1 c.wS1 && c.measuresOut c.m1 c.wS0

/-- R185 (b): every phase except `M_E`. -/
def Config.phasesBelowTimeout (c : Config) : Bool :=
  c.belowTimeout c.nP && c.belowTimeout c.mP && c.belowTimeout c.n0 && c.belowTimeout c.m0 && c.belowTimeout c.n1 &&
    c.belowTimeout c.m1 && c.belowTimeout c.nE

/-- The conditions of R185 on the configuration. -/
def Config.roundTripOk (c : Config) : Bool := c.measuresOk && c.phasesBelowTimeout

/-- R186: two back-to-back frames are separated at the receiver. -/
def Config.framesSeparate (c : Config) : Bool :=
  decide (c.rxTimeoutTicks * c.rxTickPeriod ≤ c.mE * c.symTickPeriod)

end Sys2Proof

namespace Sys2Proof.Machine

/-- The phases of a frame of `code` that the receiver measures, in order: prologue ON and OFF, and then ON and OFF of each
bit from bit 31 down (R84), 66 in all. -/
def framePhase (c : Config) (code : Code) (i : Nat) : Nat :=
  if h : i / 2 < 34 then
    if i % 2 = 0 then burstOn c code ⟨i / 2, h⟩ else burstOff c code ⟨i / 2, h⟩
  else 0

/-- `n` symbol ticks seen by the encoder, one after another. -/
def encoderTicks (c : Config) : Nat → EncoderRegs → EncoderRegs
  | 0, e => e
  | n + 1, e => encoderTicks c n (encoderTick c e)

/-- The number of one-bits of a code, R184's `k`. -/
def oneBits (code : Code) : Nat := ((List.range 32).filter fun i => code.getLsbD i).length

/-- How many of the next `n` symbol ticks find the encoder in `TX_ON`. -/
def onTicks (c : Config) : Nat → EncoderRegs → Nat
  | 0, _ => 0
  | n + 1, e => (if e.st = .on then 1 else 0) + onTicks c n (encoderTick c e)

/-- How often the carrier enable changes over the next `n` symbol ticks. -/
def carrierChanges (c : Config) : Nat → EncoderRegs → Nat
  | 0, _ => 0
  | n + 1, e =>
    (if (e.st = .on) ↔ ((encoderTick c e).st = .on) then 0 else 1) + carrierChanges c n (encoderTick c e)

end Sys2Proof.Machine
end

