-- ==== Sys2Proof/Safety.lean ====
section
/-! DEFINITION. What counts as a sound state: the invariants the spec derives (40_decoder.md R118, 10_state.md R30 and the
rules cited below), when a cycle runs normally, and what a full frame in the buffer is (40_decoder.md R119). -/

namespace Sys2Proof.Machine

/-- The state a step answers with, if it does. -/
def nextOf (o : Host.Outcome State Fault Refusal) : Option State :=
  match o with
  | .next t => some t
  | .fault _ => none
  | .refused _ => none

/-- The edge buffer is canonical, within its capacity, and every entry below `edge_count` was written (R60, R63, R64). -/
structure BufferInv (c : Config) (m : Memory) (count : Nat) : Prop where
  wf : m.wf
  bounded : ∀ e ∈ m, e.1 < c.edgeCap
  count_le : count ≤ c.edgeCap
  written : ∀ i, i < count → (m.entry i).isSome

/-- The decoder's invariants, 40_decoder.md R118 (a) to (e), with the buffer bound on `d_n` (R104). -/
structure DecoderInv (c : Config) (d : DecoderRegs) : Prop where
  n_le : d.n ≤ c.edgeCap
  pos_le : d.pos ≤ d.n
  even : d.st = .idle ∨ d.st = .symSil → d.pos % 2 = 0
  odd : d.st = .init ∨ d.st = .symPul → d.pos % 2 = 1
  noCode : d.st = .idle ∨ d.st = .init → d.code = 0
  codeBits : d.st = .symSil ∨ d.st = .symPul → d.code.toNat < 2 ^ (32 - d.bits.toNat)
  rep : d.rep = true → d.st = .symSil ∧ d.bits = 0 ∧ d.code = 0
  bits_pos : d.st = .symPul → 1 ≤ d.bits.toNat
  bits_le : d.bits.toNat ≤ 32

/-- The result registers hold one of R90's four kinds (R30). -/
def ResultInv (r : ResultRegs) : Prop := (r.rep = true → r.code = 0 ∧ r.err = false) ∧ (r.err = true → r.code = 0)

/-- How the counts of the session relate in each of its states (R137, R139, R142, R143, R147; 90_conflicts.md C3: a
session with no edge does not exist). -/
structure SessionInv (s : State) : Prop where
  lastCount_le : s.ses.lastCount ≤ s.edgeCount
  idle : s.ses.st = .idle → s.ses.lastCount = 0
  wait : s.ses.st = .wait → 1 ≤ s.ses.lastCount
  decode : s.ses.st = .decode → s.dec.n = s.ses.lastCount ∧ 1 ≤ s.dec.n
  decodeWritten : s.ses.st = .decode → ∀ i, i < s.dec.n → (s.eb.entry i).isSome

/-- The phase counter of a running phase is within the phase, so it fits `TXCNT_W` bits, and the code being sent is not
the empty sentinel (R172 to R180). -/
structure EncoderInv (c : Config) (e : EncoderRegs) : Prop where
  fits : e.cnt < 2 ^ c.txcntW
  on : e.st = .on → 1 ≤ e.cnt ∧ e.cnt ≤ burstOn c e.shift e.sym
  off : e.st = .off → 1 ≤ e.cnt ∧ e.cnt ≤ burstOff c e.shift e.sym
  code : e.st ≠ .idle → e.shift ≠ 0

/-- The invariant of the machine. -/
structure State.Inv (s : State) : Prop where
  cfg : s.cfg.wf = true
  buffer : BufferInv s.cfg s.eb s.edgeCount
  session : SessionInv s
  decoder : DecoderInv s.cfg s.dec
  result : ResultInv s.res
  encoder : EncoderInv s.cfg s.tx

/-- Both entries of the decoder's next interval read exist (R101). -/
abbrev DecoderReads (s : State) : Prop := s.dec.pos + 1 < s.cfg.edgeCap

/-- A cycle of a valid configuration, without reset, whose interval read, if the decoder makes one, finds its entries:
it runs normally. A state with `State.Inv` and `rst = 0` is ready. -/
abbrev Ready (s : State) : Prop :=
  s.cfg.wf = true ∧ s.sampled.rst = false ∧
    (s.ses.st = .decode → halted s.cfg s.dec = false → DecoderReads s)

/-- The interval from entry `i` to entry `i + 1` (R15, R101). -/
def intervalAt (m : Memory) (i : Nat) : Tick := sub32 (m.value (i + 1)) (m.value i)

/-- A buffer of `n` edges that holds the first `bits` bits of a frame of `code` from entry `base` on: the prologue and
then one silence and one pulse for each bit, bit 31 first (40_decoder.md R119). -/
structure FrameAt (c : Config) (m : Memory) (n base bits : Nat) (code : Code) : Prop where
  edges : base + 3 + 2 * bits ≤ n
  prologueSilence : inWin (intervalAt m base) c.wPS = true
  prologuePulse : inWin (intervalAt m (base + 1)) c.wPP = true
  silence : ∀ k, k < bits → inWin (intervalAt m (base + 2 + 2 * k)) c.wSS = true
  zero : ∀ k, k < bits → code.getLsbD (31 - k) = false → inWin (intervalAt m (base + 3 + 2 * k)) c.wS0 = true
  one : ∀ k, k < bits → code.getLsbD (31 - k) = true →
    inWin (intervalAt m (base + 3 + 2 * k)) c.wS1 = true ∧ inWin (intervalAt m (base + 3 + 2 * k)) c.wS0 = false

end Sys2Proof.Machine
end

