-- ==== Sys2Proof/Laws/State.lean ====
section
/-! SUPPORT. One lemma per field of each state update. -/

namespace Sys2Proof.Machine

section
variable (k : CmdStrobes) (s : State) (d : DecoderRegs)

@[simp] theorem afterCycle_cfg : (s.afterCycle k d).cfg = s.cfg := rfl
@[simp] theorem afterCycle_line : (s.afterCycle k d).line = nextLine s.sampled s := rfl
@[simp] theorem afterCycle_rxTime : (s.afterCycle k d).rxTime = nextRxTime k s.sampled s := rfl
@[simp] theorem afterCycle_edgeCount : (s.afterCycle k d).edgeCount = nextEdgeCount k s := rfl
@[simp] theorem afterCycle_eb : (s.afterCycle k d).eb = nextEb s := rfl
@[simp] theorem afterCycle_ses : (s.afterCycle k d).ses = nextSes k s := rfl
@[simp] theorem afterCycle_res : (s.afterCycle k d).res = nextRes k s := rfl
@[simp] theorem afterCycle_dec : (s.afterCycle k d).dec = d := rfl
@[simp] theorem afterCycle_txPending : (s.afterCycle k d).txPending = nextPending k s := rfl
@[simp] theorem afterCycle_tx : (s.afterCycle k d).tx = nextTx s.sampled s := rfl
@[simp] theorem afterCycle_inputs : (s.afterCycle k d).inputs = s.laterInputs := rfl
@[simp] theorem afterCycle_freeIdx : (s.afterCycle k d).freeIdx = s.nextFreeIdx := rfl

@[simp] theorem afterReset_cfg : s.afterReset.cfg = s.cfg := rfl
@[simp] theorem afterReset_line : s.afterReset.line = State.reset.line := rfl
@[simp] theorem afterReset_rxTime : s.afterReset.rxTime = 0 := rfl
@[simp] theorem afterReset_edgeCount : s.afterReset.edgeCount = 0 := rfl
@[simp] theorem afterReset_eb : s.afterReset.eb = s.eb := rfl
@[simp] theorem afterReset_ses : s.afterReset.ses = State.reset.ses := rfl
@[simp] theorem afterReset_res : s.afterReset.res = ResultRegs.empty := rfl
@[simp] theorem afterReset_dec : s.afterReset.dec = State.reset.dec := rfl
@[simp] theorem afterReset_txPending : s.afterReset.txPending = 0 := rfl
@[simp] theorem afterReset_tx : s.afterReset.tx = State.reset.tx := rfl
@[simp] theorem afterReset_inputs : s.afterReset.inputs = s.laterInputs := rfl
@[simp] theorem afterReset_freeIdx : s.afterReset.freeIdx = s.nextFreeIdx := rfl
end

section
variable (s : State) (nbits w : Nat)

@[simp] theorem withFetchWord_cfg : (s.withFetchWord nbits w).cfg = s.cfg := rfl
@[simp] theorem withFetchWord_line : (s.withFetchWord nbits w).line = s.line := rfl
@[simp] theorem withFetchWord_rxTime : (s.withFetchWord nbits w).rxTime = s.rxTime := rfl
@[simp] theorem withFetchWord_edgeCount : (s.withFetchWord nbits w).edgeCount = s.edgeCount := rfl
@[simp] theorem withFetchWord_eb : (s.withFetchWord nbits w).eb = s.eb := rfl
@[simp] theorem withFetchWord_ses : (s.withFetchWord nbits w).ses = s.ses := rfl
@[simp] theorem withFetchWord_res : (s.withFetchWord nbits w).res = s.res := rfl
@[simp] theorem withFetchWord_dec : (s.withFetchWord nbits w).dec = s.dec := rfl
@[simp] theorem withFetchWord_txPending : (s.withFetchWord nbits w).txPending = s.txPending := rfl
@[simp] theorem withFetchWord_tx : (s.withFetchWord nbits w).tx = s.tx := rfl
@[simp] theorem withFetchWord_freeIdx : (s.withFetchWord nbits w).freeIdx = s.freeIdx := rfl
end

@[simp] theorem sampled_cons (s : State) (p : PortIn) (ps : List PortIn) :
    ({ s with inputs := p :: ps } : State).sampled = p := rfl

theorem sampled_of_inputs {s : State} {p : PortIn} {ps : List PortIn} (h : s.inputs = p :: ps) : s.sampled = p := by
  simp [State.sampled, h]

@[simp] theorem command?_quiet : command? PortIn.quiet = none := rfl

end Sys2Proof.Machine
end

