-- ==== Sys2Proof/Laws/Memory.lean ====
section
/-! SUPPORT. The edge buffer: reads after writes, the canonical form, and the modular arithmetic of the cursor. -/

namespace Sys2Proof.Machine

@[simp] theorem entry_write_same (m : Memory) (i : Nat) (v : Tick) : (m.write i v).entry i = some v := by
  induction m with
  | nil => simp [Memory.write, Memory.entry]
  | cons e m ih =>
    obtain ⟨j, x⟩ := e
    by_cases h₁ : i < j
    · simp [Memory.write, Memory.entry, h₁]
    · by_cases h₂ : i = j
      · simp [Memory.write, Memory.entry, h₂]
      · simp [Memory.write, Memory.entry, h₁, h₂, Ne.symm h₂, ih]

theorem entry_write_of_ne (m : Memory) {i j : Nat} (v : Tick) (h : j ≠ i) : (m.write i v).entry j = m.entry j := by
  induction m with
  | nil => simp [Memory.write, Memory.entry, Ne.symm h]
  | cons e m ih =>
    obtain ⟨l, x⟩ := e
    by_cases h₁ : i < l
    · simp [Memory.write, Memory.entry, h₁, Ne.symm h]
    · by_cases h₂ : i = l
      · subst h₂; simp [Memory.write, Memory.entry, Ne.symm h]
      · simp [Memory.write, Memory.entry, h₁, h₂, ih]

@[simp] theorem value_write_same (m : Memory) (i : Nat) (v : Tick) : (m.write i v).value i = v := by
  simp [Memory.value]

theorem value_write_of_ne (m : Memory) {i j : Nat} (v : Tick) (h : j ≠ i) : (m.write i v).value j = m.value j := by
  simp [Memory.value, entry_write_of_ne m v h]

theorem mem_write {m : Memory} {i : Nat} {v : Tick} {e : Nat × Tick} (h : e ∈ m.write i v) : e = (i, v) ∨ e ∈ m := by
  induction m with
  | nil => simpa [Memory.write] using h
  | cons a m ih =>
    obtain ⟨j, x⟩ := a
    by_cases h₁ : i < j
    · simpa [Memory.write, h₁] using h
    · by_cases h₂ : i = j
      · simp only [Memory.write, h₂, lt_irrefl, if_false, if_true, List.mem_cons] at h ⊢
        exact h.imp_right .inr
      · simp only [Memory.write, h₁, h₂, if_false, List.mem_cons] at h ⊢
        rcases h with h | h
        · exact .inr (.inl h)
        · exact (ih h).imp_right .inr

/-- Every memory operation keeps the canonical form: writing is the only one that changes memory. -/
theorem write_wf {m : Memory} (h : m.wf) (i : Nat) (v : Tick) : (m.write i v).wf := by
  induction m with
  | nil => simp [Memory.write, Memory.wf]
  | cons e m ih =>
    obtain ⟨j, x⟩ := e
    have hm := (List.pairwise_cons.mp h)
    by_cases h₁ : i < j
    · simp only [Memory.write, h₁, if_true]
      refine List.pairwise_cons.mpr ⟨fun a ha => ?_, h⟩
      rcases List.mem_cons.mp ha with rfl | ha
      · exact h₁
      · exact lt_trans h₁ (hm.1 a ha)
    · by_cases h₂ : i = j
      · subst h₂
        simpa [Memory.write, Memory.wf, List.pairwise_cons] using h
      · simp only [Memory.write, h₁, h₂, if_false]
        refine List.pairwise_cons.mpr ⟨fun a ha => ?_, ih hm.2⟩
        rcases mem_write ha with rfl | ha
        · show j < i
          omega
        · exact hm.1 a ha

theorem reset_memory_wf : State.reset.eb.wf := List.Pairwise.nil

theorem readEntry_ok {cap i : Nat} (m : Memory) (h : i < cap) : readEntry cap m i = .ok (m.value i) := by
  simp [readEntry, h]

theorem addMod_eq {w a k : Nat} (h : a + k < 2 ^ w) : addMod w a k = a + k := Nat.mod_eq_of_lt h

theorem addMod_lt (w a k : Nat) : addMod w a k < 2 ^ w := Nat.mod_lt _ (Nat.two_pow_pos w)

theorem subMod_eq {w a b : Nat} (ha : a < 2 ^ w) (h : b ≤ a) : subMod w a b = a - b := by
  unfold subMod
  rw [Nat.mod_eq_of_lt (lt_of_le_of_lt h ha), show a + (2 ^ w - b) = a - b + 2 ^ w by omega, Nat.add_mod_right]
  exact Nat.mod_eq_of_lt (by omega)

theorem wf_edgeCap {c : Config} (h : c.wf = true) : 1 ≤ c.edgeCap ∧ c.edgeCap < 2 ^ c.cntW := by
  simp only [Config.wf, Config.edgeCapOk, Bool.and_eq_true, decide_eq_true_eq] at h
  omega

end Sys2Proof.Machine
end

