-- ==== Sys2Proof/Laws/Cycle.lean ====
section
/-! SUPPORT. What one cycle and one step can do, said once. -/

namespace Sys2Proof.Machine

/-- The strobes of each command (00_scope.md R14). -/
def strobesOf : Instr → CmdStrobes
  | .nop => CmdStrobes.none
  | .rxEnable => { CmdStrobes.none with rxEnable := true }
  | .rxDisable => { CmdStrobes.none with rxDisable := true }
  | .rxResultClear => { CmdStrobes.none with rxResultClear := true }
  | .txSetCode code => { CmdStrobes.none with txSetCode := some code }
  | .reserved5 => CmdStrobes.none
  | .reserved6 => CmdStrobes.none
  | .reserved7 => CmdStrobes.none

theorem exec_eq_clockCycle (i : Instr) (s : State) : exec i s = clockCycle (strobesOf i) s := by
  cases i <;> rfl

theorem strobesOf_rxDisable {i : Instr} (h : i ≠ .rxDisable) : (strobesOf i).rxDisable = false := by
  cases i <;> first | rfl | exact absurd rfl h

theorem strobesOf_rxEnable {i : Instr} (h : i ≠ .rxEnable) : (strobesOf i).rxEnable = false := by
  cases i <;> first | rfl | exact absurd rfl h

theorem strobesOf_rxResultClear {i : Instr} (h : i ≠ .rxResultClear) : (strobesOf i).rxResultClear = false := by
  cases i <;> first | rfl | exact absurd rfl h

theorem strobesOf_txSetCode {i : Instr} (h : ∀ code, i ≠ .txSetCode code) : (strobesOf i).txSetCode = none := by
  cases i with
  | txSetCode code => exact absurd rfl (h code)
  | _ => rfl

/-- The command of a cycle as step reads it: a cycle without one is a `NOP` cycle (R201). -/
theorem step_eq_exec (s : State) : step s = exec ((command? s.sampled).getD .nop) s := by
  unfold step
  cases command? s.sampled <;> rfl

/-- Everything a cycle can do. -/
theorem clockCycle_cases (k : CmdStrobes) (s : State) :
    (s.cfg.wf = false ∧ clockCycle k s = .refused .badConfig) ∨
    (s.cfg.wf = true ∧ s.sampled.rst = true ∧ clockCycle k s = .next s.afterReset) ∨
    (s.cfg.wf = true ∧ s.sampled.rst = false ∧ ∃ d, nextDec k s = .ok d ∧ clockCycle k s = .next (s.afterCycle k d)) ∨
    (s.cfg.wf = true ∧ s.sampled.rst = false ∧ ∃ f, nextDec k s = .error f ∧ clockCycle k s = .fault f) := by
  unfold clockCycle
  cases hw : s.cfg.wf
  · simp
  · cases hr : s.sampled.rst
    · cases hd : nextDec k s with
      | ok d => simp
      | error f => simpa using ⟨f⟩
    · simp

theorem clockCycle_next {k : CmdStrobes} {s t : State} (h : clockCycle k s = .next t) :
    s.cfg.wf = true ∧ ((s.sampled.rst = true ∧ t = s.afterReset) ∨
      (s.sampled.rst = false ∧ ∃ d, nextDec k s = .ok d ∧ t = s.afterCycle k d)) := by
  rcases clockCycle_cases k s with ⟨_, e⟩ | ⟨hw, hr, e⟩ | ⟨hw, hr, d, hd, e⟩ | ⟨_, _, f, _, e⟩ <;> rw [e] at h
  · cases h
  · cases h; exact ⟨hw, .inl ⟨hr, rfl⟩⟩
  · cases h; exact ⟨hw, .inr ⟨hr, d, hd, rfl⟩⟩
  · cases h

theorem clockCycle_reset {k : CmdStrobes} {s : State} (hw : s.cfg.wf = true) (hr : s.sampled.rst = true) :
    clockCycle k s = .next s.afterReset := by
  simp [clockCycle, hw, hr]

theorem clockCycle_ok {k : CmdStrobes} {s : State} {d : DecoderRegs} (hw : s.cfg.wf = true)
    (hr : s.sampled.rst = false) (hd : nextDec k s = .ok d) : clockCycle k s = .next (s.afterCycle k d) := by
  simp [clockCycle, hw, hr, hd]

/-- The interval the decoder reads where its entries exist. -/
theorem interval_ok {c : Config} {d : DecoderRegs} (m : Memory) (hw : c.wf = true) (h : d.pos + 1 < c.edgeCap) :
    interval c m d = .ok (intervalAt m d.pos) := by
  have hc := wf_edgeCap hw
  have hp : advancePos c d 1 = d.pos + 1 := addMod_eq (by omega)
  simp [interval, hp, readEntry, h, Nat.lt_of_succ_lt h, intervalAt]

theorem decoderFires_ok {c : Config} {d : DecoderRegs} (m : Memory) (hw : c.wf = true) (h : d.pos + 1 < c.edgeCap) :
    decoderFires c m d = .ok (fire c (intervalAt m d.pos) d) := by
  simp [decoderFires, interval_ok m hw h]

/-- The decoder's next registers, whatever the cycle does with them. -/
theorem nextDec_cases (k : CmdStrobes) (s : State) :
    (timeoutFires k s = true ∧ nextDec k s = .ok (decoderStart s.edgeCount)) ∨
    (decodeRuns k s = true ∧ timeoutFires k s = false ∧ nextDec k s = decoderFires s.cfg s.eb s.dec) ∨
    (decodeRuns k s = false ∧ timeoutFires k s = false ∧ nextDec k s = .ok s.dec) := by
  unfold nextDec
  cases timeoutFires k s <;> cases decodeRuns k s <;> simp

/-- A ready state's cycle completes. -/
theorem nextDec_ready {s : State} (h : Ready s) (k : CmdStrobes) : ∃ d, nextDec k s = .ok d := by
  rcases nextDec_cases k s with ⟨_, e⟩ | ⟨hr, _, e⟩ | ⟨_, _, e⟩
  · exact ⟨_, e⟩
  · simp only [decodeRuns, Bool.and_eq_true, beq_iff_eq, Bool.not_eq_true'] at hr
    exact ⟨_, e.trans (decoderFires_ok s.eb h.1 (h.2.2 hr.1.1 hr.2))⟩
  · exact ⟨_, e⟩

theorem exec_ready {s : State} (h : Ready s) (i : Instr) :
    ∃ d, nextDec (strobesOf i) s = .ok d ∧ exec i s = .next (s.afterCycle (strobesOf i) d) := by
  obtain ⟨d, hd⟩ := nextDec_ready h (strobesOf i)
  exact ⟨d, hd, by rw [exec_eq_clockCycle, clockCycle_ok h.1 h.2.1 hd]⟩

end Sys2Proof.Machine
end

