-- ==== Sys2Proof/Laws/PerInstr.lean ====
section
/-! SUPPORT. Facts about each instruction as syntax, one lemma per constructor. -/

namespace Sys2Proof.Laws

/-- The mask of every row of R81 keeps the opcode bits and drops the operand. -/
theorem make_and_mask (op : BitVec 3) (data : BitVec 32) :
    CmdWord.make op data &&& 0x700000000#35 = CmdWord.make op 0#32 := by
  have h : (0x700000000#35 : BitVec (3 + 32)) = 7#3 ++ 0#32 := by decide
  have h7 : op &&& 7#3 = op := by
    revert op; decide
  unfold CmdWord.make
  show (op ++ data : BitVec (3 + 32)) &&& (0x700000000#35 : BitVec (3 + 32)) = _
  rw [h, BitVec.and_append]
  simp [h7]

namespace RowOf

/-- The word of `i` matches exactly the row of R81 that carries its mnemonic. -/
def Statement (i : Instr) : Prop :=
  ((opcodeTable.filter fun r => r.matches (encode i)).map OpRow.mnemonic) = [i.mnemonic]

theorem nop : Statement .nop := by unfold Statement; decide
theorem rxEnable : Statement .rxEnable := by unfold Statement; decide
theorem rxDisable : Statement .rxDisable := by unfold Statement; decide
theorem rxResultClear : Statement .rxResultClear := by unfold Statement; decide
theorem txSetCode (code : Code) : Statement (.txSetCode code) := by
  have h : ∀ r ∈ opcodeTable, r.matches (encode (.txSetCode code)) = r.matches (encode (.txSetCode 0)) := by
    intro r hr
    have hm : r.mask = 0x700000000#35 := by
      revert hr; revert r; decide
    simp only [OpRow.matches, hm, encode, Instr.opcode, Instr.operand, make_and_mask]
  unfold Statement
  rw [List.filter_congr h]
  show _ = [(Instr.txSetCode 0).mnemonic]
  decide
theorem reserved5 : Statement .reserved5 := by unfold Statement; decide
theorem reserved6 : Statement .reserved6 := by unfold Statement; decide
theorem reserved7 : Statement .reserved7 := by unfold Statement; decide

end RowOf

end Sys2Proof.Laws
end

