-- ==== Sys2Proof/Certificates/Slice0/Obligations.lean ====
section
/-! DEFINITION. The statements for the provers, in the order of OBLIGATIONS.json. `Ready s` is a valid configuration, no
reset, and an interval read that finds its entries (Safety.lean); a statement about "every command" says so of every
constructor of `Instr`. -/

open Sys2Proof Sys2Proof.Machine

/-! ### The command word and the step -/

/-- R80, R82: no bit of a command is lost between the encoder and the decoder, on the port's word, as a number and as a
table word. -/
def Obligations.DecodeOfEncodeIsTheCommand : Prop :=
  ∀ i : Instr, decode (encode i) = i ∧ decodeWord (encode i).toNat = .ok i ∧
    decodeTableWord 40 (encode i).toNat = some i

/-- R81, R82: encoding what a word decodes to gives back its opcode, and the whole word for `TX_SET_CODE`; the operand
every other command ignores comes back as 0. -/
def Obligations.EncodeOfDecodeKeepsTheUsedBits : Prop :=
  ∀ w : CmdWord, (encode (decode w)).op = w.op ∧ (w.op = 4#3 → encode (decode w) = w) ∧
    (w.op ≠ 4#3 → (encode (decode w)).data = 0#32)

/-- R81: every word of 35 bits matches exactly one row of the opcode map, the row of the command it decodes to. -/
def Obligations.EveryWordMatchesOneRow : Prop :=
  ∀ w : CmdWord, ∃ r : OpRow, (opcodeTable.filter fun q => q.matches w) = [r] ∧ r.mnemonic = (decode w).mnemonic

/-- R80, R81: words written out from the opcode map decode to their commands (95_test_vectors.md H-V1 to H-V12). -/
def Obligations.SpelledOutWordsDecode : Prop :=
  decode 0x000000000#35 = .nop ∧ decode 0x100000000#35 = .rxEnable ∧ decode 0x1FFFFFFFF#35 = .rxEnable ∧
    decode 0x200000000#35 = .rxDisable ∧ decode 0x300000000#35 = .rxResultClear ∧
    decode 0x400F720DF#35 = .txSetCode 0x00F720DF#32 ∧ decode 0x5DEADBEEF#35 = .reserved5 ∧
    decode 0x600000000#35 = .reserved6 ∧ decode 0x700000000#35 = .reserved7

/-- R80: a number decodes exactly when it fits the 35 bits of the command port; else it is rejected by name (log
entry 7). -/
def Obligations.OnlyCommandWordsDecode : Prop :=
  ∀ w : Nat, (w < 2 ^ 35 → decodeWord w = .ok (decode (BitVec.ofNat 35 w))) ∧
    (2 ^ 35 ≤ w → decodeWord w = .error .bitsAbove34)

/-- R94: `RX_RESTART` assembles to `RX_DISABLE` and then `RX_ENABLE`. -/
def Obligations.RestartAssemblesToDisableThenEnable : Prop :=
  assemble [.rxRestart] = [0x200000000#35, 0x100000000#35] ∧
    ∀ before after : List AsmLine, assemble (before ++ .rxRestart :: after) =
      assemble before ++ [0x200000000#35, 0x100000000#35] ++ assemble after

/-- R200, R201: a step runs the command the port presents, decoded from `(cmd_op_i, cmd_data_i)`; a cycle with
`cmd_valid_i = 0` is a `NOP` cycle. -/
def Obligations.StepRunsTheDecodedCommand : Prop :=
  ∀ s : State, (s.sampled.cmdValid = true → step s = exec (decode (s.sampled.cmdOp ++ s.sampled.cmdData)) s) ∧
    (s.sampled.cmdValid = false → step s = exec .nop s)

/-- A word placed on the port is what the next step runs, without reset (log entry 4). -/
def Obligations.PlacedWordIsRun : Prop :=
  ∀ (s : State) (nbits w : Nat), w < 2 ^ 35 → 35 ≤ nbits →
    (s.withFetchWord nbits w).sampled.rst = false ∧
      step (s.withFetchWord nbits w) = exec (decode (BitVec.ofNat 35 w)) (s.withFetchWord nbits w)

/-! ### Reset and configuration -/

/-- R250, R253: one cycle with `rst = 1` puts every register of R22 but `EB` at its reset value, whatever command is
presented. -/
def Obligations.ResetCycleResetsAllButTheBuffer : Prop :=
  ∀ s : State, s.cfg.wf = true → s.sampled.rst = true → ∃ t : State, step s = .next t ∧ (∀ i, exec i s = .next t) ∧
    t.line = { s1 := true, s2 := true, prev := true } ∧ t.rxTime = 0 ∧ t.edgeCount = 0 ∧
    t.ses = { st := .off, lastCount := 0, lastAct := 0 } ∧ t.res = { code := 0, rep := false, err := false } ∧
    t.dec = { st := .idle, pos := 0, n := 0, bits := 0, code := 0, rep := false } ∧ t.txPending = 0 ∧
    t.tx = { st := .idle, shift := 0, sym := 0, cnt := 0 } ∧ t.eb = s.eb ∧ t.cfg = s.cfg

/-- R251: the outputs after reset. -/
def Obligations.OutputsAfterReset : Prop :=
  let zero : PortOut :=
    { carrierEn := false, symTimerRun := false, rxTimerRun := false, txActive := false, txPending := false,
      txState := 0, rxCode := 0, rxRep := false, rxErr := false, rxResultPending := false, rxActive := false,
      rxState := 0, rxEdgeCount := 0 }
  State.reset.outputs = zero ∧
    ∀ s : State, s.cfg.wf = true → s.sampled.rst = true → ∃ t : State, step s = .next t ∧ t.outputs = zero

/-- R254: a step is refused for its configuration exactly when one of P1 to P7 fails; the reference profile meets
them. That every step is refused then, with `rst = 1` too, is the model's choice (log entry 9). -/
def Obligations.InvalidConfigurationIsRefused : Prop :=
  Config.reference.wf = true ∧ ∀ s : State, step s = .refused .badConfig ↔
    ¬ ((s.cfg.codeW = 32 ∧ s.cfg.nbits = 32 ∧ s.cfg.tickW = 32) ∧
      (1 ≤ s.cfg.edgeCap ∧ s.cfg.edgeCap < 2 ^ s.cfg.cntW) ∧
      (∀ w ∈ [s.cfg.wPS, s.cfg.wPP, s.cfg.wRP, s.cfg.wSS, s.cfg.wS0, s.cfg.wS1],
        w.min ≤ w.max ∧ w.max ≤ 2 ^ 32 - 1) ∧
      (1 ≤ s.cfg.rxTimeoutTicks ∧ s.cfg.rxTimeoutTicks ≤ 2 ^ 32 - 1) ∧
      (∀ l ∈ [s.cfg.nP, s.cfg.n0, s.cfg.n1, s.cfg.nE], 1 ≤ l ∧ l ≤ 2 ^ s.cfg.txcntW - 1) ∧
      (∀ l ∈ [s.cfg.mP, s.cfg.m0, s.cfg.m1], 1 ≤ l ∧ l ≤ 2 ^ s.cfg.txcntW - 1) ∧
      s.cfg.mE ≤ 2 ^ s.cfg.txcntW - 1)

/-- R185, R186: the reference profile meets the round-trip conditions and separates frames; the periods are whole
nanoseconds (log entry 18). -/
def Obligations.ReferenceProfileRoundTrips : Prop :=
  Config.reference.roundTripOk = true ∧ Config.reference.framesSeparate = true

/-- R7: no cycle changes the configuration. -/
def Obligations.ConfigurationIsConstant : Prop :=
  ∀ s t : State, step s = .next t → t.cfg = s.cfg

/-! ### Edge capture -/

/-- R130, R131: in every cycle `ir_s1 <- ir_rx_i; ir_s2 <- ir_s1; ir_prev <- ir_s2`, whatever the command. -/
def Obligations.SynchroniserShiftsEveryCycle : Prop :=
  ∀ (i : Instr) (s : State), Ready s → ∃ t : State, exec i s = .next t ∧
    t.line = { s1 := s.sampled.irRx, s2 := s.line.s1, prev := s.line.s2 }

/-- R132, R133, R134, R137, R147: the only entry a cycle writes is `EB[edge_count] <- rx_time`, when capture is enabled, an
edge is detected and the buffer is not full, and `edge_count` then counts it; every other entry reads as before, and no
flag is written for it. `edge_count` is cleared by an enable in `OFF` and by a done decode. -/
def Obligations.CaptureWritesAndCountsOneEdge : Prop :=
  ∀ (i : Instr) (s : State), Ready s → ∃ t : State, exec i s = .next t ∧
    (∀ j : Nat, t.eb.entry j =
      if (s.ses.st = .idle ∨ s.ses.st = .wait) ∧ s.line.s2 ≠ s.line.prev ∧ s.edgeCount < s.cfg.edgeCap ∧
          j = s.edgeCount
      then some s.rxTime else s.eb.entry j) ∧
    (t.edgeCount =
      if (s.ses.st = .off ∧ i = .rxEnable) ∨ (s.ses.st = .decode ∧ i ≠ .rxDisable ∧ halted s.cfg s.dec = true) then 0
      else if (s.ses.st = .idle ∨ s.ses.st = .wait) ∧ s.line.s2 ≠ s.line.prev ∧ s.edgeCount < s.cfg.edgeCap
        then s.edgeCount + 1
      else s.edgeCount) ∧
    (s.ses.st = .idle ∨ s.ses.st = .wait → i ≠ .rxResultClear → t.res = s.res)

/-- R270: a level new on an idle line in cycle `c` is in the buffer and counted in cycle `c + 3`, with the time of cycle
`c + 2`, and the session is in `WAIT` in cycle `c + 4`. -/
def Obligations.EdgeLatency : Prop :=
  ∀ (s : State) (level : Bool) (p₀ p₁ p₂ p₃ : PortIn) (rest : List PortIn), s.Inv → s.ses.st = .idle → s.edgeCount = 0 →
    s.line = { s1 := level, s2 := level, prev := level } → s.inputs = p₀ :: p₁ :: p₂ :: p₃ :: rest →
    p₀.irRx = !level →
    (∀ p ∈ [p₀, p₁, p₂, p₃], p.rst = false ∧ command? p ≠ some .rxDisable) →
      ∃ t u : State, Host.Core.run Sys2Proof.core 3 s = .next t ∧ t.edgeCount = 1 ∧ t.ses.st = .idle ∧
        t.eb.entry 0 = some (s.rxTime + (if p₀.rxTick then 1 else 0) + (if p₁.rxTick then 1 else 0)) ∧
        Host.Core.run Sys2Proof.core 4 s = .next u ∧ u.ses.st = .wait ∧ u.ses.lastCount = 1

/-- R135, R136: the receive timer counts its strobes modulo `2^32` while the session is not `OFF`, as `rx_timer_run_o`
says, is cleared by an enable in `OFF`, and holds otherwise. -/
def Obligations.ReceiveTimerCountsStrobes : Prop :=
  ∀ (i : Instr) (s : State), Ready s → ∃ t : State, exec i s = .next t ∧
    (s.outputs.rxTimerRun = true ↔ s.ses.st ≠ .off) ∧
    t.rxTime =
      if s.ses.st = .off ∧ i = .rxEnable then 0
      else if s.ses.st ≠ .off ∧ s.sampled.rxTick = true then s.rxTime + 1
      else s.rxTime

/-! ### The receive session -/

/-- R137, R202: `RX_ENABLE` in `OFF`. -/
def Obligations.EnableStartsTheSession : Prop :=
  ∀ s : State, s.cfg.wf = true → s.sampled.rst = false → s.ses.st = .off → ∃ t : State, exec .rxEnable s = .next t ∧
    t.ses = { st := .idle, lastCount := 0, lastAct := s.ses.lastAct } ∧ t.rxTime = 0 ∧ t.edgeCount = 0 ∧
    t.res = s.res ∧ t.eb = s.eb ∧ t.dec = s.dec

/-- R150, R132, R135, R105: in `OFF` every command but `RX_ENABLE` leaves the session, the timer, the buffer and its count
and the decoder alone, whatever the line and the strobes do. -/
def Obligations.OffStaysOffUntilEnabled : Prop :=
  ∀ (i : Instr) (s : State), s.cfg.wf = true → s.sampled.rst = false → s.ses.st = .off → i ≠ .rxEnable →
    ∃ t : State, exec i s = .next t ∧ t.ses = s.ses ∧ t.rxTime = s.rxTime ∧ t.edgeCount = s.edgeCount ∧ t.eb = s.eb ∧
      t.dec = s.dec

/-- R138, R141, R145, R203: `RX_DISABLE` outside `OFF`, over every other transition of the session: no result is exposed,
no decode starts or runs, and a running decode leaves the buffer and its count alone. -/
def Obligations.DisableLeavesForOff : Prop :=
  ∀ s : State, s.cfg.wf = true → s.sampled.rst = false → s.ses.st ≠ .off → ∃ t : State, exec .rxDisable s = .next t ∧
    t.ses = { st := .off, lastCount := s.ses.lastCount, lastAct := s.ses.lastAct } ∧ t.res = s.res ∧ t.dec = s.dec ∧
    (s.ses.st = .decode → t.edgeCount = s.edgeCount ∧ t.eb = s.eb)

/-- R268, R206: a `TX_SET_CODE` that finds a code pending, an `RX_ENABLE` outside `OFF`, an `RX_DISABLE` in `OFF` and the
reserved opcodes 5 to 7, whatever their operand, run exactly as a `NOP` does; a `TX_SET_CODE` in a cycle with
`tx_pending_o = 0` is taken. -/
def Obligations.DroppedCommandsAreNops : Prop :=
  ∀ s : State, Ready s → ∃ t : State, exec .nop s = .next t ∧
    exec .reserved5 s = .next t ∧ exec .reserved6 s = .next t ∧ exec .reserved7 s = .next t ∧
    (s.sampled.cmdValid = true → 5#3 ≤ s.sampled.cmdOp → step s = .next t) ∧
    (s.ses.st ≠ .off → exec .rxEnable s = .next t) ∧ (s.ses.st = .off → exec .rxDisable s = .next t) ∧
    ∀ code : Code, (s.outputs.txPending = true → exec (.txSetCode code) s = .next t) ∧
      (s.outputs.txPending = false → ∃ u : State, exec (.txSetCode code) s = .next u ∧ u.txPending = code)

/-- R139, R142, R150: a changed count in `IDLE` or `WAIT` is recorded with the time and the session is in `WAIT`; no
decode starts, even when the timeout has expired. -/
def Obligations.ActivityRestartsTheTimeout : Prop :=
  ∀ (i : Instr) (s : State), s.cfg.wf = true → s.sampled.rst = false → i ≠ .rxDisable →
    s.ses.st = .idle ∨ s.ses.st = .wait → s.edgeCount ≠ s.ses.lastCount → ∃ t : State, exec i s = .next t ∧
      t.ses = { st := .wait, lastCount := s.edgeCount, lastAct := s.rxTime } ∧ t.dec = s.dec

/-- R140, R144: with no new edge, and in `WAIT` before the timeout, no session register changes and no decode starts. -/
def Obligations.QuietSessionHolds : Prop :=
  ∀ (i : Instr) (s : State), s.cfg.wf = true → s.sampled.rst = false → i ≠ .rxDisable →
    s.edgeCount = s.ses.lastCount →
    s.ses.st = .idle ∨ (s.ses.st = .wait ∧ (s.rxTime - s.ses.lastAct).toNat < s.cfg.rxTimeoutTicks) →
      ∃ t : State, exec i s = .next t ∧ t.ses = s.ses ∧ t.dec = s.dec

/-- R143, R104: the timeout starts a decode of the edges counted so far. -/
def Obligations.TimeoutStartsTheDecode : Prop :=
  ∀ (i : Instr) (s : State), s.cfg.wf = true → s.sampled.rst = false → i ≠ .rxDisable → s.ses.st = .wait →
    s.edgeCount = s.ses.lastCount → s.cfg.rxTimeoutTicks ≤ (s.rxTime - s.ses.lastAct).toNat →
      ∃ t : State, exec i s = .next t ∧
        t.ses = { st := .decode, lastCount := s.ses.lastCount, lastAct := s.ses.lastAct } ∧
        t.dec = { st := .idle, pos := 0, n := s.edgeCount, bits := 0, code := 0, rep := false }

/-- R147, R148: a halted decode exposes its result, over a clear in the same cycle, and clears the buffer's count; the
entries keep their values. -/
def Obligations.DoneDecodeExposesItsResult : Prop :=
  ∀ (i : Instr) (s : State), s.cfg.wf = true → s.sampled.rst = false → i ≠ .rxDisable → s.ses.st = .decode →
    halted s.cfg s.dec = true → ∃ t : State, exec i s = .next t ∧
      t.res = { code := s.dec.code, rep := s.dec.rep, err := decide (s.dec.code = 0 ∧ s.dec.rep = false) } ∧
      t.edgeCount = 0 ∧ t.ses = { st := .idle, lastCount := 0, lastAct := s.ses.lastAct } ∧ t.eb = s.eb ∧
      t.dec = s.dec

/-- R149, R150: in a cycle whose decode is not done, `RX_RESULT_CLEAR` zeroes the result in every session state, and
every other command leaves it alone. -/
def Obligations.OnlyClearTouchesAnExposedResult : Prop :=
  ∀ (i : Instr) (s : State), Ready s → ¬ (s.ses.st = .decode ∧ i ≠ .rxDisable ∧ halted s.cfg s.dec = true) →
    ∃ t : State, exec i s = .next t ∧
      t.res = if i = .rxResultClear then { code := 0, rep := false, err := false } else s.res

/-! ### What each command changes, against a cycle without one -/

/-- R204: the cycle of `RX_RESULT_CLEAR`, opcode 3 with any operand, differs from the same cycle with `NOP` in the result
registers only, and in nothing when the decode is done in it. -/
def Obligations.ResultClearChangesOnlyTheResult : Prop :=
  ∀ s : State, Ready s → ∃ t : State, exec .nop s = .next t ∧
    exec .rxResultClear s = .next
      (if s.ses.st = .decode ∧ halted s.cfg s.dec = true then t
        else { t with res := { code := 0, rep := false, err := false } }) ∧
    (s.sampled.cmdValid = true → s.sampled.cmdOp = 3#3 → step s = exec .rxResultClear s)

/-- R205: the cycle of `TX_SET_CODE code`, opcode 4 with the code as its operand, differs from the same cycle with `NOP`
in `tx_pending` only, which takes the code when it holds the empty sentinel. -/
def Obligations.SetCodeChangesOnlyThePendingCode : Prop :=
  ∀ (code : Code) (s : State), Ready s → ∃ t : State, exec .nop s = .next t ∧
    exec (.txSetCode code) s = .next (if s.txPending = 0 then { t with txPending := code } else t) ∧
    (s.sampled.cmdValid = true → s.sampled.cmdOp = 4#3 → s.sampled.cmdData = code →
      step s = exec (.txSetCode code) s)

/-- R202: the cycle of `RX_ENABLE`, opcode 1 with any operand, differs from the same cycle with `NOP` in the session
state, the last count, the receive timer and the edge count only, and in nothing outside `OFF`. -/
def Obligations.EnableChangesOnlyTheSession : Prop :=
  ∀ s : State, Ready s → ∃ t : State, exec .nop s = .next t ∧
    exec .rxEnable s = .next
      (if s.ses.st = .off then { t with ses := { s.ses with st := .idle, lastCount := 0 }, rxTime := 0, edgeCount := 0 }
        else t) ∧
    (s.sampled.cmdValid = true → s.sampled.cmdOp = 1#3 → step s = exec .rxEnable s)

/-- R203: the cycle of `RX_DISABLE`, opcode 2 with any operand, differs from the same cycle with `NOP` only in what the
session's own transition would have changed, and in nothing in `OFF`. -/
def Obligations.DisableChangesOnlyTheSession : Prop :=
  ∀ s : State, Ready s → ∃ t : State, exec .nop s = .next t ∧
    exec .rxDisable s = .next
      (if s.ses.st = .off then t
        else { t with
          ses := { s.ses with st := .off }
          dec := s.dec
          res := s.res
          edgeCount := if s.ses.st = .decode then s.edgeCount else t.edgeCount }) ∧
    (s.sampled.cmdValid = true → s.sampled.cmdOp = 2#3 → step s = exec .rxDisable s)

/-! ### The encoder -/

/-- R172, R205: a pending code starts a transmission and is consumed, whatever the command; a `TX_SET_CODE` of that
cycle is dropped. -/
def Obligations.PendingCodeStartsTheTransmission : Prop :=
  ∀ (i : Instr) (s : State), Ready s → s.tx.st = .idle → s.txPending ≠ 0 → ∃ t : State, exec i s = .next t ∧
    t.tx = { st := .on, shift := s.txPending, sym := 0, cnt := s.cfg.nP } ∧ t.txPending = 0

/-- R173: with nothing pending in `TX_IDLE` no encoder register changes, whatever the ticks, and the carrier is off. -/
def Obligations.IdleEncoderWaitsForACode : Prop :=
  ∀ (i : Instr) (s : State), Ready s → s.tx.st = .idle → s.txPending = 0 → s.outputs.carrierEn = false ∧
    ∃ t : State, exec i s = .next t ∧ t.tx = s.tx

/-- R174, R175, R176, with the advance of R180: a cycle in `TX_ON`. Only the epilogue's OFF phase can be empty. -/
def Obligations.EncoderCycleInOnPhase : Prop :=
  ∀ (i : Instr) (s : State), Ready s → s.tx.st = .on → ∃ t : State, exec i s = .next t ∧
    (s.sampled.symTick = false → t.tx = s.tx) ∧
    (s.sampled.symTick = true → t.tx.shift = s.tx.shift ∧
      (1 < s.tx.cnt → t.tx = { s.tx with cnt := s.tx.cnt - 1 }) ∧
      (s.tx.cnt ≤ 1 → 0 < burstOff s.cfg s.tx.shift s.tx.sym →
        t.tx = { s.tx with st := .off, cnt := burstOff s.cfg s.tx.shift s.tx.sym }) ∧
      (s.tx.cnt ≤ 1 → burstOff s.cfg s.tx.shift s.tx.sym = 0 →
        s.tx.sym.val = 33 ∧ t.tx = { s.tx with st := .idle }))

/-- R177, R178, with the advance of R179, R180: a cycle in `TX_OFF`. -/
def Obligations.EncoderCycleInOffPhase : Prop :=
  ∀ (i : Instr) (s : State), Ready s → s.tx.st = .off → ∃ t : State, exec i s = .next t ∧
    (s.sampled.symTick = false → t.tx = s.tx) ∧
    (s.sampled.symTick = true → t.tx.shift = s.tx.shift ∧
      (1 < s.tx.cnt → t.tx = { s.tx with cnt := s.tx.cnt - 1 }) ∧
      (s.tx.cnt ≤ 1 → s.tx.sym.val < 33 →
        t.tx.st = .on ∧ t.tx.sym.val = s.tx.sym.val + 1 ∧ t.tx.cnt = burstOn s.cfg s.tx.shift t.tx.sym) ∧
      (s.tx.cnt ≤ 1 → s.tx.sym.val = 33 → t.tx = { s.tx with st := .idle }))

/-- R205, R172: what `tx_pending` becomes in a cycle. -/
def Obligations.PendingCodeIsTakenHeldOrConsumed : Prop :=
  ∀ (i : Instr) (s : State), Ready s → ∃ t : State, exec i s = .next t ∧
    (s.txPending = 0 → (∀ code, i = .txSetCode code → t.txPending = code) ∧
      ((∀ code, i ≠ .txSetCode code) → t.txPending = 0)) ∧
    (s.txPending ≠ 0 → t.txPending = if s.tx.st = .idle then 0 else s.txPending)

/-- R84, R170, R171: the lengths of the 34 symbols: the prologue, bit `32 - k` of the code for symbol `k`, the
epilogue. -/
def Obligations.BurstLengthsFollowTheCode : Prop :=
  ∀ (c : Config) (code : Code),
    burstOn c code 0 = c.nP ∧ burstOff c code 0 = c.mP ∧ burstOn c code 33 = c.nE ∧ burstOff c code 33 = c.mE ∧
    ∀ k : Fin 34, 1 ≤ k.val → k.val ≤ 32 →
      burstOn c code k = (if code.getLsbD (32 - k.val) then c.n1 else c.n0) ∧
      burstOff c code k = (if code.getLsbD (32 - k.val) then c.m1 else c.m0)

/-- R184: how long a frame's bursts are together, by the number of one-bits of the code; `1610 + 20 k` in the reference
profile. -/
def Obligations.FrameLengthByOneBits : Prop :=
  (∀ (c : Config) (code : Code),
    frameOnTicks c code = c.nP + (32 - oneBits code) * c.n0 + oneBits code * c.n1 + c.nE ∧
    frameTicks c code = c.nP + c.mP + (32 - oneBits code) * (c.n0 + c.m0) + oneBits code * (c.n1 + c.m1) +
      c.nE + c.mE) ∧
  ∀ code : Code, frameTicks Config.reference code = 1610 + 20 * oneBits code

/-- R184: from its start, a transmission is under way for exactly the symbol ticks of its frame, and then over; the
carrier is ON in as many of them as the ON phases have. -/
def Obligations.TransmissionLastsItsFrame : Prop :=
  ∀ (c : Config) (code : Code), c.wf = true →
    (∀ k, k < frameTicks c code → (encoderTicks c k (encoderStart c code)).st ≠ .idle) ∧
    (encoderTicks c (frameTicks c code) (encoderStart c code)).st = .idle ∧
    onTicks c (frameTicks c code) (encoderStart c code) = frameOnTicks c code

/-- R272, R255: on the symbol strobes of the model's bench (log entry 12), a transmission that starts in this cycle is
under way in exactly `frameTicks * CLK_PER_SYM_TICK` cycles from the next one on, and then over, if the block is not
reset. -/
def Obligations.TransmissionLastsItsFrameInCycles : Prop :=
  ∀ (b : Bench) (t : BenchState), b.ticks.wf = true → b.resets = [] → t.block.Inv → t.block.tx.st = .idle →
    t.block.txPending ≠ 0 →
      (∀ k, k < frameTicks t.block.cfg t.block.txPending * b.ticks.clkPerSymTick →
        ∃ u : BenchState, b.run (k + 1) t = .next u ∧ symTimerRun u.block = true) ∧
      ∃ u : BenchState, b.run (frameTicks t.block.cfg t.block.txPending * b.ticks.clkPerSymTick + 1) t = .next u ∧
        symTimerRun u.block = false

/-- R184: after the carrier is turned on at the start, it changes 67 more times, 68 changes in all, whether or not
`M_E = 0`. -/
def Obligations.CarrierChangesPerFrame : Prop :=
  ∀ (c : Config) (code : Code), c.wf = true → carrierChanges c (frameTicks c code) (encoderStart c code) = 67

/-- R21, R89, R135, R151, R152, R181 to R183: the outputs are the stated functions of the registers. -/
def Obligations.OutputsFollowTheRegisters : Prop :=
  ∀ s : State,
    (s.outputs.carrierEn = true ↔ s.tx.st = .on) ∧ (s.outputs.symTimerRun = true ↔ s.tx.st ≠ .idle) ∧
    (s.outputs.rxTimerRun = true ↔ s.ses.st ≠ .off) ∧ (s.outputs.txActive = true ↔ s.tx.st ≠ .idle) ∧
    (s.outputs.txPending = true ↔ s.txPending ≠ 0) ∧
    (s.outputs.txState = 0 ↔ s.tx.st = .idle) ∧ (s.outputs.txState = 1 ↔ s.tx.st = .on) ∧
    (s.outputs.txState = 2 ↔ s.tx.st = .off) ∧
    s.outputs.rxCode = s.res.code ∧ s.outputs.rxRep = s.res.rep ∧ s.outputs.rxErr = s.res.err ∧
    (s.outputs.rxResultPending = true ↔ s.res.code ≠ 0 ∨ s.res.rep = true ∨ s.res.err = true) ∧
    (s.outputs.rxActive = true ↔ s.ses.st = .wait ∨ s.ses.st = .decode) ∧
    (s.outputs.rxState = 0 ↔ s.ses.st = .off) ∧ (s.outputs.rxState = 1 ↔ s.ses.st = .idle) ∧
    (s.outputs.rxState = 2 ↔ s.ses.st = .wait) ∧ (s.outputs.rxState = 3 ↔ s.ses.st = .decode) ∧
    s.outputs.rxEdgeCount = s.edgeCount

/-! ### The decoder -/

/-- R103: when the decoder is halted, for a cursor within its edges. -/
def Obligations.DecoderHaltsAtEndOrCompletion : Prop :=
  ∀ (c : Config) (d : DecoderRegs), c.wf = true → d.n ≤ c.edgeCap → d.pos ≤ d.n →
    (halted c d = true ↔ d.n - d.pos < 2 ∨ (d.st = .symSil ∧ d.bits = 0))

/-- R105, R106, R107: one decoder cycle in `D_IDLE`. -/
def Obligations.DecoderCycleInIdle : Prop :=
  ∀ (i : Instr) (s : State), s.Inv → s.sampled.rst = false → i ≠ .rxDisable → s.ses.st = .decode →
    halted s.cfg s.dec = false → s.dec.st = .idle → ∃ t : State, exec i s = .next t ∧ t.ses = s.ses ∧
      t.dec =
        if s.cfg.wPS.min ≤ (s.eb.value (s.dec.pos + 1) - s.eb.value s.dec.pos).toNat ∧
            (s.eb.value (s.dec.pos + 1) - s.eb.value s.dec.pos).toNat ≤ s.cfg.wPS.max
        then { s.dec with st := .init, pos := s.dec.pos + 1 }
        else { s.dec with pos := s.dec.pos + 2 }

/-- R105, R108, R109, R110: one decoder cycle in `D_INIT`; `W_PP` is tested first (R102). -/
def Obligations.DecoderCycleInInit : Prop :=
  ∀ (i : Instr) (s : State), s.Inv → s.sampled.rst = false → i ≠ .rxDisable → s.ses.st = .decode →
    halted s.cfg s.dec = false → s.dec.st = .init → ∃ t : State, exec i s = .next t ∧ t.ses = s.ses ∧
      t.dec =
        if s.cfg.wPP.min ≤ (s.eb.value (s.dec.pos + 1) - s.eb.value s.dec.pos).toNat ∧
            (s.eb.value (s.dec.pos + 1) - s.eb.value s.dec.pos).toNat ≤ s.cfg.wPP.max
        then { s.dec with st := .symSil, pos := s.dec.pos + 1, bits := 32, rep := false }
        else if s.cfg.wRP.min ≤ (s.eb.value (s.dec.pos + 1) - s.eb.value s.dec.pos).toNat ∧
            (s.eb.value (s.dec.pos + 1) - s.eb.value s.dec.pos).toNat ≤ s.cfg.wRP.max
        then { s.dec with st := .symSil, pos := s.dec.pos + 1, bits := 0, rep := true }
        else { s.dec with st := .idle, pos := s.dec.pos + 1 }

/-- R105, R112, R113: one decoder cycle in `D_SYMSIL`, bits remaining. -/
def Obligations.DecoderCycleInSymbolSilence : Prop :=
  ∀ (i : Instr) (s : State), s.Inv → s.sampled.rst = false → i ≠ .rxDisable → s.ses.st = .decode →
    halted s.cfg s.dec = false → s.dec.st = .symSil → ∃ t : State, exec i s = .next t ∧ t.ses = s.ses ∧
      t.dec =
        if s.cfg.wSS.min ≤ (s.eb.value (s.dec.pos + 1) - s.eb.value s.dec.pos).toNat ∧
            (s.eb.value (s.dec.pos + 1) - s.eb.value s.dec.pos).toNat ≤ s.cfg.wSS.max
        then { s.dec with st := .symPul, pos := s.dec.pos + 1 }
        else { s.dec with st := .idle, code := 0 }

/-- R105, R114, R115, R116: one decoder cycle in `D_SYMPUL`; `W_S0` is tested first (R102). -/
def Obligations.DecoderCycleInSymbolPulse : Prop :=
  ∀ (i : Instr) (s : State), s.Inv → s.sampled.rst = false → i ≠ .rxDisable → s.ses.st = .decode →
    halted s.cfg s.dec = false → s.dec.st = .symPul → ∃ t : State, exec i s = .next t ∧ t.ses = s.ses ∧
      t.dec =
        if s.cfg.wS0.min ≤ (s.eb.value (s.dec.pos + 1) - s.eb.value s.dec.pos).toNat ∧
            (s.eb.value (s.dec.pos + 1) - s.eb.value s.dec.pos).toNat ≤ s.cfg.wS0.max
        then { s.dec with
          st := .symSil
          pos := s.dec.pos + 1
          bits := s.dec.bits - 1
          code := s.dec.code.extractLsb' 0 31 ++ 0#1 }
        else if s.cfg.wS1.min ≤ (s.eb.value (s.dec.pos + 1) - s.eb.value s.dec.pos).toNat ∧
            (s.eb.value (s.dec.pos + 1) - s.eb.value s.dec.pos).toNat ≤ s.cfg.wS1.max
        then { s.dec with
          st := .symSil
          pos := s.dec.pos + 1
          bits := s.dec.bits - 1
          code := s.dec.code.extractLsb' 0 31 ++ 1#1 }
        else { s.dec with st := .idle, pos := s.dec.pos + 1, code := 0 }

/-- R119: a buffer that holds a full frame decodes to its code in 66 transitions, whatever the code; a code other than 0
is exposed as a code. -/
def Obligations.FullFrameDecodesToItsCode : Prop :=
  ∀ (c : Config) (m : Memory) (n : Nat) (code : Code), c.wf = true → n ≤ c.edgeCap → FrameAt c m n 0 32 code →
    decodeHalted c m n = .ok ({ st := .symSil, pos := 66, n := n, bits := 0, code := code, rep := false }, 66) ∧
      necDecode c m n = .ok (code, false) ∧
      (code ≠ 0 → resultOf { st := .symSil, pos := 66, n := n, bits := 0, code := code, rep := false } =
        { code := code, rep := false, err := false })

/-- R120: prologue silence and then a repetition pulse decode to code 0 with repetition, in 2 transitions, whatever
follows. -/
def Obligations.RepetitionFrameDecodes : Prop :=
  ∀ (c : Config) (m : Memory) (n : Nat), c.wf = true → 3 ≤ n → n ≤ c.edgeCap →
    inWin (intervalAt m 0) c.wPS = true → inWin (intervalAt m 1) c.wRP = true → inWin (intervalAt m 1) c.wPP = false →
      decodeHalted c m n = .ok ({ st := .symSil, pos := 2, n := n, bits := 0, code := 0, rep := true }, 2)

/-- R121: a frame behind `j` noise pairs decodes to its code, each pair costing one transition. -/
def Obligations.NoisePairsAreSkipped : Prop :=
  ∀ (c : Config) (m : Memory) (n j : Nat) (code : Code), c.wf = true → n ≤ c.edgeCap →
    (∀ k, k < j → inWin (intervalAt m (2 * k)) c.wPS = false) → FrameAt c m n (2 * j) 32 code →
      decodeHalted c m n =
        .ok ({ st := .symSil, pos := 2 * j + 66, n := n, bits := 0, code := code, rep := false }, 66 + j)

/-- R117, R264: a buffer that ends inside a frame, after `k` bits, decodes to the `k` bits received, right-aligned. -/
def Obligations.TruncatedFrameReturnsTheBitsReceived : Prop :=
  ∀ (c : Config) (m : Memory) (k : Nat) (code : Code), c.wf = true → k < 32 → 3 + 2 * k ≤ c.edgeCap →
    FrameAt c m (3 + 2 * k) 0 k code →
      ∃ d : DecoderRegs, decodeHalted c m (3 + 2 * k) = .ok (d, 2 + 2 * k) ∧ d.code = code >>> (32 - k) ∧ d.rep = false

/-- R123: a decode of `n` edges ends halted after at most `2 * n` transitions, and reads no entry that does not exist. -/
def Obligations.DecodeTerminates : Prop :=
  ∀ (c : Config) (m : Memory) (n : Nat), c.wf = true → n ≤ c.edgeCap →
    ∃ (d : DecoderRegs) (t : Nat), decodeHalted c m n = .ok (d, t) ∧ t ≤ 2 * n ∧ halted c d = true

/-- R122: a decode depends on the first `n` entries, on `n` and on the six windows only. -/
def Obligations.DecodeDependsOnItsEdgesOnly : Prop :=
  ∀ (c c' : Config) (m m' : Memory) (n : Nat), c.wf = true → c'.wf = true → n ≤ c.edgeCap → n ≤ c'.edgeCap →
    c.wPS = c'.wPS → c.wPP = c'.wPP → c.wRP = c'.wRP → c.wSS = c'.wSS → c.wS0 = c'.wS0 → c.wS1 = c'.wS1 →
    (∀ i, i < n → m.value i = m'.value i) → decodeHalted c m n = decodeHalted c' m' n

/-- R105, R124, R147, R270: the cycle-level decoder, started, exposes exactly the functional decode's result, in the
cycle after its `t` transitions, whatever else the host and the line do but reset and disable. -/
def Obligations.CycleDecoderRefinesTheFunctionalDecode : Prop :=
  ∀ (s : State) (d : DecoderRegs) (t : Nat), s.Inv → s.ses.st = .decode → s.dec = decoderStart s.dec.n →
    decodeHalted s.cfg s.eb s.dec.n = .ok (d, t) → t < s.inputs.length →
    (∀ p ∈ s.inputs, p.rst = false ∧ command? p ≠ some .rxDisable) →
      ∃ u : State, Host.Core.run Sys2Proof.core (t + 1) s = .next u ∧ u.ses.st = .idle ∧ u.edgeCount = 0 ∧
        u.res = { code := d.code, rep := d.rep, err := decide (d.code = 0 ∧ d.rep = false) } ∧ u.eb = s.eb

/-- R185: a buffer whose intervals are measurements of the phases the encoder emits for a code, each rounded down or up,
decodes to that code, under R185's conditions on the configuration (log entry 18); a code other than 0 is exposed as a code. -/
def Obligations.EncodedFrameRoundTrips : Prop :=
  ∀ (c : Config) (m : Memory) (n : Nat) (code : Code), c.wf = true → c.roundTripOk = true → 67 ≤ n → n ≤ c.edgeCap →
    (∀ i, i < 66 → c.ticksFloor (framePhase c code i) ≤ (intervalAt m i).toNat ∧
      (intervalAt m i).toNat ≤ c.ticksCeil (framePhase c code i)) →
      ∃ (d : DecoderRegs) (t : Nat), decodeHalted c m n = .ok (d, t) ∧ d.code = code ∧ d.rep = false ∧
        (code ≠ 0 → resultOf d = { code := code, rep := false, err := false })

/-! ### The machine as a whole -/

/-- The invariant holds in the reset state. -/
def Obligations.ResetMeetsTheInvariant : Prop := State.reset.Inv

/-- R118, R30, R63, R64 and the other parts of `State.Inv`: every step keeps the invariant, from every state that has
it. -/
def Obligations.StepKeepsTheInvariant : Prop := ∀ s t : State, s.Inv → step s = .next t → t.Inv

/-- R220: the block never stops: from a state with the invariant every step answers a next state. -/
def Obligations.BlockNeverStops : Prop := ∀ s : State, s.Inv → ∃ t : State, step s = .next t

/-- R267: the receive side does not depend on the transmit side: two states that differ only in the encoder's registers
and the pending code go to states that differ only in those. -/
def Obligations.ReceiverIgnoresTheTransmitter : Prop :=
  ∀ (i : Instr) (s t : State) (e : EncoderRegs) (q : Code), exec i s = .next t →
    ∃ u : State, exec i { s with tx := e, txPending := q } = .next u ∧
      u = { t with tx := u.tx, txPending := u.txPending }

/-- R267: the transmit side does not depend on the receive side: two states of one configuration and the same inputs, the
same encoder and pending code, whatever the receive side holds, go to the same encoder and pending code. -/
def Obligations.TransmitterIgnoresTheReceiver : Prop :=
  ∀ (i : Instr) (s s' t t' : State), s'.cfg = s.cfg → s'.inputs = s.inputs → s'.freeIdx = s.freeIdx → s'.tx = s.tx →
    s'.txPending = s.txPending → exec i s = .next t → exec i s' = .next t' → t'.tx = t.tx ∧ t'.txPending = t.txPending

/-- R153, R140: with an empty buffer and the line at rest, no decode starts, however long the machine runs and whatever
the host does but reset. -/
def Obligations.NoDecodeWithoutAnEdge : Prop :=
  ∀ (s : State) (level : Bool) (n : Nat), s.Inv → s.ses.st = .off ∨ s.ses.st = .idle → s.edgeCount = 0 →
    s.line = { s1 := level, s2 := level, prev := level } → n ≤ s.inputs.length →
    (∀ p ∈ s.inputs, p.rst = false ∧ p.irRx = level) →
      ∃ t : State, Host.Core.run Sys2Proof.core n s = .next t ∧ (t.ses.st = .off ∨ t.ses.st = .idle) ∧
        t.edgeCount = 0 ∧ t.dec = s.dec
end

