-- ==== Sys2Proof/Laws/Decode.lean ====
section
/-! SUPPORT. The command word's fields and the opcode map. -/

namespace Sys2Proof

@[simp] theorem op_make (op : BitVec 3) (data : BitVec 32) : (CmdWord.make op data).op = op :=
  BitVec.extractLsb'_append_eq_left

@[simp] theorem data_make (op : BitVec 3) (data : BitVec 32) : (CmdWord.make op data).data = data :=
  BitVec.extractLsb'_append_eq_right

@[simp] theorem make_op_data (w : CmdWord) : CmdWord.make w.op w.data = w := by
  refine BitVec.eq_of_getLsbD_eq fun i hi => ?_
  simp only [CmdWord.make, CmdWord.op, CmdWord.data, BitVec.getLsbD_append, BitVec.getLsbD_extractLsb']
  by_cases h : i < 32
  · simp [h]
  · have h₁ : 32 + (i - 32) = i := by omega
    have h₂ : i - 32 < 3 := by omega
    simp [h, h₁, h₂]

theorem op_cases (op : BitVec 3) :
    op = 0 ∨ op = 1 ∨ op = 2 ∨ op = 3 ∨ op = 4 ∨ op = 5 ∨ op = 6 ∨ op = 7 := by
  revert op; decide

theorem opcode_decode (w : CmdWord) : (decode w).opcode = w.op := by
  rcases op_cases w.op with h | h | h | h | h | h | h | h <;> simp [decode, decodeFields, h, Instr.opcode]

theorem decodeFields_opcode_operand (i : Instr) : decodeFields i.opcode i.operand = i := by
  cases i <;> simp [Instr.opcode, Instr.operand, decodeFields]

end Sys2Proof
end

