-- ==== Sys2Proof/Laws/Decoder.lean ====
section
/-! SUPPORT. The decoder: halting and transitions of a cursor within its edges, without modular arithmetic. -/

namespace Sys2Proof.Machine

theorem edgesRemaining_eq {c : Config} {d : DecoderRegs} (hw : c.wf = true) (hn : d.n ≤ c.edgeCap)
    (hp : d.pos ≤ d.n) : edgesRemaining c d = d.n - d.pos :=
  subMod_eq (lt_of_le_of_lt hn (wf_edgeCap hw).2) hp

theorem halted_false_iff {c : Config} {d : DecoderRegs} (hw : c.wf = true) (hn : d.n ≤ c.edgeCap)
    (hp : d.pos ≤ d.n) : halted c d = false ↔ d.pos + 2 ≤ d.n ∧ ¬ (d.st = .symSil ∧ d.bits = 0) := by
  simp only [halted, edgesRemaining_eq hw hn hp, Bool.or_eq_false_iff, decide_eq_false_iff_not,
    Bool.and_eq_false_iff, beq_eq_false_iff_ne, not_and_or]
  constructor
  · rintro ⟨h₁, h₂⟩
    exact ⟨by omega, h₂⟩
  · rintro ⟨h₁, h₂⟩
    exact ⟨by omega, h₂⟩

theorem advancePos_eq {c : Config} {d : DecoderRegs} {k : Nat} (hw : c.wf = true) (hn : d.n ≤ c.edgeCap)
    (hp : d.pos + k ≤ d.n) : advancePos c d k = d.pos + k :=
  addMod_eq (by have := wf_edgeCap hw; omega)

theorem appendBit_eq (code : Code) (b : Bool) :
    appendBit code b = code.extractLsb' 0 31 ++ (if b then 1#1 else 0#1) := by
  refine BitVec.eq_of_getLsbD_eq fun i hi => ?_
  rw [BitVec.getLsbD_append]
  cases i with
  | zero => cases b <;> simp [appendBit]
  | succ i =>
    have h₁ : ¬ i + 1 < 1 := by omega
    have h₂ : i < 31 := by omega
    rw [if_neg h₁, BitVec.getLsbD_extractLsb', appendBit, BitVec.getLsbD_or, BitVec.getLsbD_shiftLeft]
    cases b <;> simp [h₂, hi]

theorem appendBit_toNat {code : Code} (b : Bool) (h : code.toNat < 2 ^ 31) :
    (appendBit code b).toNat = 2 * code.toNat + b.toNat := by
  have h₁ : (code <<< 1).toNat = 2 * code.toNat := by
    rw [BitVec.toNat_shiftLeft, Nat.shiftLeft_eq]; omega
  cases b
  · simp [appendBit, h₁]
  · rw [appendBit, if_pos rfl, BitVec.toNat_or, h₁]
    exact (Nat.two_pow_add_eq_or_of_lt (i := 1) (b := 1) (by omega) code.toNat).symm

@[simp] theorem fire_n (c : Config) (iv : Tick) (d : DecoderRegs) : (fire c iv d).n = d.n := by
  unfold fire
  cases d.st
  · simp only [fireIdle]; split <;> rfl
  · simp only [fireInit]; split
    · rfl
    · split <;> rfl
  · simp only [fireSymSil]; split
    · rfl
    · split <;> rfl
  · simp only [fireSymPul]; split
    · rfl
    · split <;> rfl

/-- Every transition from a cursor that is not halted and has its invariant, one case per rule R106 to R116. -/
theorem fire_cases {c : Config} {d : DecoderRegs} (iv : Tick) (hw : c.wf = true) (hn : d.n ≤ c.edgeCap)
    (hp : d.pos ≤ d.n) (hh : halted c d = false) :
    (d.st = .idle ∧ inWin iv c.wPS = true ∧ fire c iv d = { d with st := .init, pos := d.pos + 1 }) ∨
    (d.st = .idle ∧ inWin iv c.wPS = false ∧ fire c iv d = { d with pos := d.pos + 2 }) ∨
    (d.st = .init ∧ inWin iv c.wPP = true ∧
      fire c iv d = { d with st := .symSil, pos := d.pos + 1, bits := 32, rep := false }) ∨
    (d.st = .init ∧ inWin iv c.wPP = false ∧ inWin iv c.wRP = true ∧
      fire c iv d = { d with st := .symSil, pos := d.pos + 1, bits := 0, rep := true }) ∨
    (d.st = .init ∧ inWin iv c.wPP = false ∧ inWin iv c.wRP = false ∧
      fire c iv d = { d with st := .idle, pos := d.pos + 1 }) ∨
    (d.st = .symSil ∧ d.bits ≠ 0 ∧ inWin iv c.wSS = true ∧
      fire c iv d = { d with st := .symPul, pos := d.pos + 1 }) ∨
    (d.st = .symSil ∧ d.bits ≠ 0 ∧ inWin iv c.wSS = false ∧ fire c iv d = { d with st := .idle, code := 0 }) ∨
    (d.st = .symPul ∧ inWin iv c.wS0 = true ∧ fire c iv d =
      { d with st := .symSil, pos := d.pos + 1, bits := d.bits - 1, code := appendBit d.code false }) ∨
    (d.st = .symPul ∧ inWin iv c.wS0 = false ∧ inWin iv c.wS1 = true ∧ fire c iv d =
      { d with st := .symSil, pos := d.pos + 1, bits := d.bits - 1, code := appendBit d.code true }) ∨
    (d.st = .symPul ∧ inWin iv c.wS0 = false ∧ inWin iv c.wS1 = false ∧
      fire c iv d = { d with st := .idle, pos := d.pos + 1, code := 0 }) := by
  obtain ⟨h₁, h₂⟩ := (halted_false_iff hw hn hp).mp hh
  have p₁ : advancePos c d 1 = d.pos + 1 := advancePos_eq hw hn (by omega)
  have p₂ : advancePos c d 2 = d.pos + 2 := advancePos_eq hw hn h₁
  cases hs : d.st
  · cases hi : inWin iv c.wPS <;> simp [fire, fireIdle, hs, hi, p₁, p₂]
  · cases hi : inWin iv c.wPP <;> cases hj : inWin iv c.wRP <;> simp [fire, fireInit, hs, hi, hj, p₁]
  · have hb : d.bits ≠ 0#6 := fun h => h₂ ⟨hs, h⟩
    cases hi : inWin iv c.wSS <;> simp [fire, fireSymSil, hs, hi, hb, p₁]
  · cases hi : inWin iv c.wS0 <;> cases hj : inWin iv c.wS1 <;> simp [fire, fireSymPul, hs, hi, hj, p₁]

theorem decoderRun_halted {c : Config} {m : Memory} {d : DecoderRegs} (fuel : Nat) (h : halted c d = true) :
    decoderRun c m fuel d = .ok (d, 0) := by
  cases fuel <;> simp [decoderRun, h]

theorem decoderRun_step {c : Config} {m : Memory} {d e : DecoderRegs} {fuel t : Nat} (hw : c.wf = true)
    (hn : d.n ≤ c.edgeCap) (hp : d.pos ≤ d.n) (h : halted c d = false)
    (hr : decoderRun c m fuel (fire c (intervalAt m d.pos) d) = .ok (e, t)) :
    decoderRun c m (fuel + 1) d = .ok (e, t + 1) := by
  have := (halted_false_iff hw hn hp).mp h
  simp [decoderRun, h, decoderFires_ok m hw (by omega : d.pos + 1 < c.edgeCap), hr]

end Sys2Proof.Machine
end

