-- ==== Sys2Proof/Laws/Encoder.lean ====
section
/-! SUPPORT. The encoder: every value its registers and the pending code can take after a cycle. -/

namespace Sys2Proof.Machine

theorem startFires_iff (s : State) : startFires s = true ↔ s.tx.st = .idle ∧ s.txPending ≠ 0 := by
  simp [startFires]

theorem nextTx_start {s : State} (p : PortIn) (h : startFires s = true) :
    nextTx p s = encoderStart s.cfg s.txPending := by
  simp [nextTx, h]

theorem nextTx_of_not_start {s : State} (p : PortIn) (h : startFires s = false) :
    nextTx p s = if p.symTick then encoderTick s.cfg s.tx else s.tx := by
  simp [nextTx, h]

@[simp] theorem encoderAdvance_shift (c : Config) (e : EncoderRegs) : (encoderAdvance c e).shift = e.shift := by
  unfold encoderAdvance; split <;> rfl

/-- R179, R180. -/
theorem encoderAdvance_cases (c : Config) (e : EncoderRegs) :
    (e.sym.val < 33 ∧ (encoderAdvance c e).st = .on ∧ (encoderAdvance c e).sym.val = e.sym.val + 1 ∧
      (encoderAdvance c e).cnt = burstOn c e.shift (encoderAdvance c e).sym) ∨
    (e.sym.val = 33 ∧ encoderAdvance c e = { e with st := .idle }) := by
  unfold encoderAdvance
  split
  · exact .inl ⟨‹_›, rfl, rfl, rfl⟩
  · exact .inr ⟨by omega, rfl⟩

@[simp] theorem encoderTick_shift (c : Config) (e : EncoderRegs) : (encoderTick c e).shift = e.shift := by
  unfold encoderTick
  cases e.st
  · rfl
  · simp only [tickOn]; split
    · rfl
    · split
      · rfl
      · simp
  · simp only [tickOff]; split
    · rfl
    · simp

theorem wf_onPhases {c : Config} (h : c.wf = true) (code : Code) (s : Fin 34) :
    1 ≤ burstOn c code s ∧ burstOn c code s < 2 ^ c.txcntW := by
  simp only [Config.wf, Config.onPhasesOk, Config.phaseOk, Bool.and_eq_true, decide_eq_true_eq] at h
  have := Nat.two_pow_pos c.txcntW
  unfold burstOn
  split
  · omega
  · split
    · omega
    · split <;> omega

theorem wf_offPhases {c : Config} (h : c.wf = true) (code : Code) (s : Fin 34) :
    (s.val < 33 → 1 ≤ burstOff c code s) ∧ burstOff c code s < 2 ^ c.txcntW := by
  simp only [Config.wf, Config.offPhasesOk, Config.epilogueOffOk, Config.phaseOk, Bool.and_eq_true,
    decide_eq_true_eq] at h
  have := Nat.two_pow_pos c.txcntW
  unfold burstOff
  split
  · omega
  · split
    · omega
    · split <;> omega

end Sys2Proof.Machine
end

