-- ==== Sys2Proof/Laws/Session.lean ====
section
/-! SUPPORT. When the rules of a cycle fire, as propositions over the command and the state, and what the session's,
capture's and result's registers become. -/

namespace Sys2Proof.Machine

theorem strobesOf_rxEnable_iff (i : Instr) : (strobesOf i).rxEnable = true ↔ i = .rxEnable := by
  cases i <;> simp [strobesOf, CmdStrobes.none]

theorem strobesOf_rxDisable_iff (i : Instr) : (strobesOf i).rxDisable = true ↔ i = .rxDisable := by
  cases i <;> simp [strobesOf, CmdStrobes.none]

theorem strobesOf_rxResultClear_iff (i : Instr) : (strobesOf i).rxResultClear = true ↔ i = .rxResultClear := by
  cases i <;> simp [strobesOf, CmdStrobes.none]

theorem enableFires_iff (i : Instr) (s : State) :
    enableFires (strobesOf i) s = true ↔ s.ses.st = .off ∧ i = .rxEnable := by
  simp only [enableFires, Bool.and_eq_true, beq_iff_eq, strobesOf_rxEnable_iff]

theorem decodeDone_iff (i : Instr) (s : State) :
    decodeDone (strobesOf i) s = true ↔ s.ses.st = .decode ∧ i ≠ .rxDisable ∧ halted s.cfg s.dec = true := by
  simp only [decodeDone, Bool.and_eq_true, beq_iff_eq, Bool.not_eq_true', ← Bool.not_eq_true,
    strobesOf_rxDisable_iff, and_assoc, ne_eq]

theorem decodeRuns_iff (i : Instr) (s : State) :
    decodeRuns (strobesOf i) s = true ↔ s.ses.st = .decode ∧ i ≠ .rxDisable ∧ halted s.cfg s.dec = false := by
  simp only [decodeRuns, Bool.and_eq_true, beq_iff_eq, Bool.not_eq_true', ← Bool.not_eq_true,
    strobesOf_rxDisable_iff, and_assoc, ne_eq]

theorem countChanged_iff (s : State) : countChanged s = true ↔ s.edgeCount ≠ s.ses.lastCount := bne_iff_ne

theorem timeoutExpired_iff (s : State) :
    timeoutExpired s = true ↔ s.cfg.rxTimeoutTicks ≤ (s.rxTime - s.ses.lastAct).toNat := decide_eq_true_iff

theorem timeoutFires_iff (i : Instr) (s : State) :
    timeoutFires (strobesOf i) s = true ↔ s.ses.st = .wait ∧ i ≠ .rxDisable ∧ s.edgeCount = s.ses.lastCount ∧
      s.cfg.rxTimeoutTicks ≤ (s.rxTime - s.ses.lastAct).toNat := by
  simp only [timeoutFires, Bool.and_eq_true, beq_iff_eq, Bool.not_eq_true', ← Bool.not_eq_true,
    strobesOf_rxDisable_iff, countChanged_iff, timeoutExpired_iff, ne_eq, not_not, and_assoc]

theorem captureFires_iff (s : State) :
    captureFires s = true ↔
      (s.ses.st = .idle ∨ s.ses.st = .wait) ∧ s.line.s2 ≠ s.line.prev ∧ s.edgeCount < s.cfg.edgeCap := by
  simp only [captureFires, captureEnabled, edgeDetected, Bool.and_eq_true, Bool.or_eq_true, beq_iff_eq, bne_iff_ne,
    decide_eq_true_eq, and_assoc]

theorem entry_nextEb (s : State) (j : Nat) :
    (nextEb s).entry j = if captureFires s = true ∧ j = s.edgeCount then some s.rxTime else s.eb.entry j := by
  unfold nextEb
  cases captureFires s
  · simp
  · by_cases h : j = s.edgeCount
    · simp [h]
    · simp [h, entry_write_of_ne]

theorem nextEb_of_decode {s : State} (h : s.ses.st = .decode) : nextEb s = s.eb := by
  have : captureFires s = false := by simp [captureFires, captureEnabled, h]
  simp [nextEb, this]

/-- Every value the session's registers can take after a cycle, by its state. -/
theorem nextSes_cases (k : CmdStrobes) (s : State) :
    (s.ses.st = .off ∧ k.rxEnable = true ∧ nextSes k s = { s.ses with st := .idle, lastCount := 0 }) ∨
    (s.ses.st ≠ .off ∧ k.rxDisable = true ∧ nextSes k s = sessionOff s) ∨
    ((s.ses.st = .idle ∨ s.ses.st = .wait) ∧ k.rxDisable = false ∧ s.edgeCount ≠ s.ses.lastCount ∧
      nextSes k s = sessionActivity s) ∨
    (timeoutFires k s = true ∧ nextSes k s = { s.ses with st := .decode }) ∨
    (decodeDone k s = true ∧ nextSes k s = { s.ses with st := .idle, lastCount := 0 }) ∨
    (timeoutFires k s = false ∧ decodeDone k s = false ∧ nextSes k s = s.ses) := by
  cases hs : s.ses.st
  · cases hk : k.rxEnable <;>
      simp [nextSes, nextSesOff, hs, hk, timeoutFires, decodeDone]
  · cases hk : k.rxDisable
    · cases hc : countChanged s
      · simp [nextSes, nextSesIdle, hs, hk, hc, timeoutFires, decodeDone]
      · have := (countChanged_iff s).mp hc
        simp [nextSes, nextSesIdle, hs, hk, hc, this]
    · simp [nextSes, nextSesIdle, hs, hk]
  · cases hk : k.rxDisable
    · cases hc : countChanged s
      · cases ht : timeoutExpired s <;>
          simp [nextSes, nextSesWait, hs, hk, hc, ht, timeoutFires, decodeDone]
      · have := (countChanged_iff s).mp hc
        simp [nextSes, nextSesWait, hs, hk, hc, this]
    · simp [nextSes, nextSesWait, hs, hk]
  · cases hk : k.rxDisable
    · cases hh : halted s.cfg s.dec <;>
        simp [nextSes, nextSesDecode, hs, hk, hh, timeoutFires, decodeDone]
    · simp [nextSes, nextSesDecode, hs, hk]

/-- A cycle whose decoder neither starts nor moves completes, whatever its cursor. -/
theorem exec_without_decoder {i : Instr} {s : State} (hw : s.cfg.wf = true) (hr : s.sampled.rst = false)
    (ht : timeoutFires (strobesOf i) s = false) (hd : decodeRuns (strobesOf i) s = false) :
    exec i s = .next (s.afterCycle (strobesOf i) s.dec) := by
  rw [exec_eq_clockCycle, clockCycle_ok (d := s.dec) hw hr (by simp [nextDec, ht, hd])]

/-- A cycle whose timeout fires starts the decoder. -/
theorem exec_timeout {i : Instr} {s : State} (hw : s.cfg.wf = true) (hr : s.sampled.rst = false)
    (ht : timeoutFires (strobesOf i) s = true) :
    exec i s = .next (s.afterCycle (strobesOf i) (decoderStart s.edgeCount)) := by
  rw [exec_eq_clockCycle, clockCycle_ok (d := decoderStart s.edgeCount) hw hr (by simp [nextDec, ht])]

end Sys2Proof.Machine
end

