-- ==== Sys2Proof/Tests/Slice0.lean ====
section
/-! SUPPORT. The model's own tests: the checks of WellFormed refuse ill-formed terms, words written out from 30_encoding.md
R81 decode, single cycles agree with the vectors of 95_test_vectors.md (the vector is named at each test), and, for every
obligation with hypotheses, a concrete state and operands that meet them. -/

namespace Sys2Proof.Tests

open Sys2Proof Sys2Proof.Machine

/-! ### WellFormed: one ill-formed term for each check -/

theorem test_refuses_code_width : ({ Config.reference with codeW := 16 } : Config).widthsOk = false := by decide
theorem test_refuses_nbits : ({ Config.reference with nbits := 33 } : Config).wf = false := by decide
theorem test_refuses_tick_width : ({ Config.reference with tickW := 16 } : Config).wf = false := by decide
theorem test_refuses_empty_buffer : ({ Config.reference with edgeCap := 0 } : Config).edgeCapOk = false := by decide
theorem test_refuses_narrow_count : ({ Config.reference with cntW := 8 } : Config).wf = false := by decide
theorem test_refuses_reversed_window : ({ Config.reference with wPP := ⟨496, 495⟩ } : Config).windowsOk = false := by
  decide
theorem test_refuses_wide_window : ({ Config.reference with wS1 := ⟨0, 2 ^ 32⟩ } : Config).wf = false := by decide
theorem test_refuses_zero_timeout : ({ Config.reference with rxTimeoutTicks := 0 } : Config).timeoutOk = false := by
  decide
theorem test_refuses_long_timeout : ({ Config.reference with rxTimeoutTicks := 2 ^ 32 } : Config).wf = false := by decide
theorem test_refuses_empty_on_phase : ({ Config.reference with nE := 0 } : Config).onPhasesOk = false := by decide
theorem test_refuses_long_on_phase : ({ Config.reference with n1 := 2 ^ 16 } : Config).wf = false := by decide
theorem test_refuses_empty_off_phase : ({ Config.reference with m0 := 0 } : Config).offPhasesOk = false := by decide
theorem test_refuses_long_epilogue : ({ Config.reference with mE := 2 ^ 16 } : Config).epilogueOffOk = false := by decide
theorem test_accepts_empty_epilogue_off : ({ Config.reference with mE := 0 } : Config).wf = true := by decide
theorem test_accepts_one_point_window : ({ Config.reference with wRP := ⟨202, 202⟩ } : Config).wf = true := by decide
theorem test_refuses_zero_strobe_period : ({ clkPerRxTick := 0, clkPerSymTick := 45, rxPhase := 0 } : TickSource).wf =
    false := by decide

/-! ### Decoding: words written out from R81 -/

theorem test_decode_nop : decode 0x000000000#35 = .nop := by decide
theorem test_decode_rx_enable : decode 0x100000000#35 = .rxEnable := by decide
/-- H-V4: the operand is ignored. -/
theorem test_decode_rx_enable_operand : decode 0x1FFFFFFFF#35 = .rxEnable := by decide
theorem test_decode_rx_disable : decode 0x200000000#35 = .rxDisable := by decide
theorem test_decode_rx_result_clear : decode 0x300000000#35 = .rxResultClear := by decide
theorem test_decode_tx_set_code : decode 0x400F720DF#35 = .txSetCode 0x00F720DF#32 := by decide
theorem test_decode_reserved5 : decode 0x5DEADBEEF#35 = .reserved5 := by decide
theorem test_decode_reserved6 : decode 0x600000000#35 = .reserved6 := by decide
theorem test_decode_reserved7 : decode 0x700000000#35 = .reserved7 := by decide
/-- R80: the port has 35 bits. -/
theorem test_decode_word_limits : decodeWord (2 ^ 35 - 1) = .ok .reserved7 ∧ decodeWord (2 ^ 35) = .error .bitsAbove34 := by
  constructor <;> rfl
theorem test_table_word : decodeTableWord 35 0x400F720DF = some (.txSetCode 0x00F720DF#32) := by decide
/-- R93. -/
theorem test_encode_tx_set_code : encode (.txSetCode 0x12345678#32) = 0x412345678#35 := by decide

/-- R93's own line, and a code in lower case. -/
theorem test_parse_set_code :
    parseTokens ["TX_SET_CODE", "0x00F720DF"] = some (.command (.txSetCode 0x00F720DF#32)) ∧
      parseTokens ["TX_SET_CODE", "0xf"] = some (.command (.txSetCode 15#32)) := by decide
/-- R93: the operand has at most 32 bits and hexadecimal digits only. -/
theorem test_parse_rejects : parseTokens ["TX_SET_CODE", "0x100000000"] = none ∧
    parseTokens ["TX_SET_CODE", "0x1G"] = none ∧ parseTokens ["TX_SET_CODE", "0x"] = none := by decide

/-! ### States -/

/-- A cycle's inputs: the line at 1, a command word presented. -/
def presenting (w : CmdWord) : PortIn := { PortIn.quiet with cmdValid := true, cmdOp := w.op, cmdData := w.data }

/-- A cycle's inputs: the line at 1, a symbol strobe. -/
def symStrobe : PortIn := { PortIn.quiet with symTick := true }

/-- The state with these input ports next. -/
def given (p : PortIn) (s : State) : State := { s with inputs := [p] }

/-- `OFF`, an edge count and a result left from before (H-V2). -/
def offState : State :=
  { State.reset with
    rxTime := 500
    edgeCount := 2
    eb := [(0, 12), (1, 42)]
    ses := { st := .off, lastCount := 2, lastAct := 42 }
    res := { code := 0x00F720DF, rep := false, err := false }
    inputs := [PortIn.quiet] }

/-- `IDLE` with an empty buffer. -/
def idleState : State :=
  { State.reset with ses := { st := .idle, lastCount := 0, lastAct := 0 }, inputs := [PortIn.quiet] }

/-- `WAIT` after the two edges of S-V1, at this time. -/
def waitState (now : Tick) : State :=
  { State.reset with
    rxTime := now
    edgeCount := 2
    eb := [(0, 12), (1, 42)]
    ses := { st := .wait, lastCount := 2, lastAct := 42 }
    inputs := [PortIn.quiet] }

/-- `DECODE` on the edges of program P2, with this cursor. -/
def decodeState (d : DecoderRegs) : State :=
  { State.reset with
    rxTime := 2306
    edgeCount := 4
    eb := [(0, 125), (1, 1025), (2, 1250), (3, 1306)]
    ses := { st := .decode, lastCount := 4, lastAct := 1306 }
    dec := d
    inputs := [PortIn.quiet, PortIn.quiet, PortIn.quiet] }

/-- P2's decode, halted. -/
def repetitionDone : DecoderRegs := { st := .symSil, pos := 2, n := 4, bits := 0, code := 0, rep := true }

/-- `DECODE` on the first edges of `F(c, 0)`, the bits of `c` being 1 and then 0, with this cursor. -/
def bitState (d : DecoderRegs) : State :=
  { State.reset with
    rxTime := 3000
    edgeCount := 7
    eb := [(0, 0), (1, 900), (2, 1350), (3, 1406), (4, 1575), (5, 1631), (6, 1687)]
    ses := { st := .decode, lastCount := 7, lastAct := 1687 }
    dec := d
    inputs := [PortIn.quiet] }

/-- A transmission of RED in a phase (T-V1). -/
def txState (st : TxState) (sym : Fin 34) (cnt : Nat) : State :=
  { State.reset with tx := { st := st, shift := 0x00F720DF, sym := sym, cnt := cnt }, inputs := [symStrobe] }

/-- RED pending in `TX_IDLE`. -/
def pendingState : State := { State.reset with txPending := 0x00F720DF, inputs := [PortIn.quiet] }

/-- One field of the state a step answers with. -/
def after {α : Type} (f : State → α) (s : State) : Option α := (nextOf (step s)).map f

/-! ### Single cycles, against the vectors of 95_test_vectors.md -/

/-- H-V1: the cycle's other rules run. -/
theorem test_nop_counts_the_tick :
    after State.rxTime (given { presenting 0x000000000#35 with rxTick := true } (waitState 100)) = some 101 := by decide
/-- H-V2. -/
theorem test_rx_enable_in_off : after (fun t => (t.ses.st, t.edgeCount, t.ses.lastCount, t.rxTime, t.res.code))
    (given (presenting 0x100000000#35) offState) = some (.idle, 0, 0, 0, 0x00F720DF) := by decide
/-- H-V3. -/
theorem test_rx_enable_in_wait : after (fun t => (t.ses.st, t.edgeCount, t.rxTime))
    (given (presenting 0x100000000#35) (waitState 100)) = some (.wait, 2, 100) := by decide
/-- H-V5, H-V12's first word: the count is kept. -/
theorem test_rx_disable_in_wait : after (fun t => (t.ses.st, t.edgeCount, t.outputs.rxTimerRun))
    (given (presenting 0x200000000#35) (waitState 100)) = some (.off, 2, false) := by decide
/-- S-V8: disable in the cycle the decode is done. -/
theorem test_rx_disable_beats_done : after (fun t => (t.ses.st, t.res, t.edgeCount))
    (given (presenting 0x200000000#35) (decodeState repetitionDone)) = some (.off, ResultRegs.empty, 4) := by decide
/-- S-V6. -/
theorem test_rx_result_clear_in_off : after (fun t => (t.res.code, t.outputs.rxResultPending))
    (given (presenting 0x300000000#35) offState) = some (0, false) := by decide
/-- S-V7: the new result wins. -/
theorem test_done_beats_clear : after (fun t => (t.ses.st, t.res.rep))
    (given (presenting 0x300000000#35) (decodeState repetitionDone)) = some (.idle, true) := by decide
/-- H-V8. -/
theorem test_tx_set_code : after State.txPending (given (presenting 0x400F720DF#35) State.reset) = some 0x00F720DF := by
  decide
/-- T-V7: the code presented while one is consumed is dropped. -/
theorem test_tx_set_code_dropped : after (fun t => (t.txPending, t.tx.shift))
    (given (presenting 0x412345678#35) pendingState) = some (0, 0x00F720DF) := by decide
/-- H-V10. -/
theorem test_reserved5 : after (fun t => (t.ses.st, t.txPending)) (given (presenting 0x5DEADBEEF#35) State.reset) =
    some (.off, 0) := by decide
theorem test_reserved6 : after (fun t => (t.ses.st, t.txPending)) (given (presenting 0x600000000#35) State.reset) =
    some (.off, 0) := by decide
/-- H-V11. -/
theorem test_reserved7 : after (fun t => (t.ses.st, t.txPending)) (given (presenting 0x700000000#35) State.reset) =
    some (.off, 0) := by decide
/-- M-V1, R133's example. -/
theorem test_capture : after (fun t => (t.eb, t.edgeCount))
    { decodeState repetitionDone with
      rxTime := 2406
      edgeCount := 3
      eb := []
      line := { s1 := false, s2 := false, prev := true }
      ses := { st := .wait, lastCount := 3, lastAct := 1250 } } = some ([(3, 2406)], 4) := by decide
/-- S-V10: the buffer is full. -/
theorem test_capture_overflow : after (fun t => (t.eb, t.edgeCount))
    { waitState 100 with edgeCount := 256, line := { s1 := false, s2 := false, prev := true } } =
      some ([(0, 12), (1, 42)], 256) := by decide
/-- S-V1, S-V4: 999 ticks are no timeout, 1000 are. -/
theorem test_timeout_boundary : after (fun t => t.ses.st) (waitState 1041) = some .wait ∧
    after (fun t => (t.ses.st, t.dec.n)) (waitState 1042) = some (.decode, 2) := by decide
/-- S-V5: across the wrap of the timer. -/
theorem test_timeout_wraps : after (fun t => t.ses.st)
    { waitState 0x000003D8 with ses := { st := .wait, lastCount := 2, lastAct := 0xFFFFFFF0 } } = some .decode := by decide
/-- S-V11. -/
theorem test_new_count_beats_timeout : after (fun t => (t.ses.st, t.ses.lastAct)) { waitState 2000 with edgeCount := 3 } =
    some (.wait, 2000) := by decide
/-- R147's error kind, D-V4: code 0 without repetition. -/
theorem test_error_result : after (fun t => (t.res.err, t.edgeCount))
    { waitState 1042 with
      ses := { st := .decode, lastCount := 2, lastAct := 42 }
      dec := { st := .idle, pos := 2, n := 2, bits := 0, code := 0, rep := false } } = some (true, 0) := by decide
/-- T-V1. -/
theorem test_start : after (fun t => (t.outputs.carrierEn, t.txPending, t.tx.sym, t.tx.cnt)) pendingState =
    some (true, 0, 0, 160) := by decide
/-- T-V2: the prologue's 160th strobe. -/
theorem test_prologue_ends : after (fun t => (t.outputs.carrierEn, t.tx.cnt)) (txState .on 0 1) = some (false, 80) := by
  decide
/-- R179's example: bit 31 of RED is 0. Then symbol 9 carries its bit 23, which is 1 (R84). -/
theorem test_next_symbol : after (fun t => (t.tx.sym, t.tx.cnt, t.tx.st)) (txState .off 1 1) = some (2, 10, .on) ∧
    after (fun t => t.tx.cnt) (txState .on 9 1) = some 30 := by decide
/-- T-V4. -/
theorem test_epilogue_ends : after (fun t => (t.tx.st, t.tx.sym, t.tx.cnt)) (txState .off 33 1) = some (.idle, 33, 1) := by
  decide
/-- T-V9: an epilogue without an OFF phase. -/
theorem test_epilogue_without_off : after (fun t => t.tx.st)
    { txState .on 33 1 with cfg := { Config.reference with mE := 0 } } = some .idle := by decide
/-- X-V1: reset drops the command. -/
theorem test_reset_drops_the_command : after (fun t => (t.ses.st, t.eb, t.res.code))
    (given { presenting 0x100000000#35 with rst := true } offState) = some (.off, [(0, 12), (1, 42)], 0) := by decide
/-- U9: an ill-formed configuration is refused. -/
theorem test_step_refuses_bad_config :
    step { idleState with cfg := { Config.reference with rxTimeoutTicks := 0 } } = .refused .badConfig := by rfl

/-! ### Whole decodes of short buffers -/

/-- The entries of a buffer, from index `i` on. -/
def entriesFrom : Nat → List Tick → Memory
  | _, [] => []
  | i, v :: vs => (i, v) :: entriesFrom (i + 1) vs

/-- What a decode answers and in how many transitions. -/
def decoded (c : Config) (vs : List Tick) : Option (DecoderRegs × Nat) :=
  match decodeHalted c (entriesFrom 0 vs) vs.length with
  | .ok r => some r
  | .error _ => none

/-- D-V5. -/
theorem test_decode_repetition : decoded Config.reference [0, 900, 1125, 1181] =
    some ({ st := .symSil, pos := 2, n := 4, bits := 0, code := 0, rep := true }, 2) := by decide
/-- D-V16. -/
theorem test_decode_init_noise : decoded Config.reference [0, 900, 1200, 1500] =
    some ({ st := .idle, pos := 4, n := 4, bits := 0, code := 0, rep := false }, 3) := by decide
/-- D-B21. -/
theorem test_decode_silence_noise : decoded Config.reference [0, 900, 1350, 1399, 1568] =
    some ({ st := .idle, pos := 4, n := 5, bits := 32, code := 0, rep := false }, 4) := by decide
/-- D-B22. -/
theorem test_decode_one_bit : decoded Config.reference [0, 900, 1350, 1400, 1569] =
    some ({ st := .symSil, pos := 4, n := 5, bits := 31, code := 1, rep := false }, 4) := by decide
/-- D-W2. -/
theorem test_decode_decreasing : decoded Config.reference [0x00000010, 0x00000000] =
    some ({ st := .idle, pos := 2, n := 2, bits := 0, code := 0, rep := false }, 1) := by decide
/-- D-O1: `W_PP` is tested first. -/
theorem test_decode_overlap : decoded { Config.reference with wRP := ⟨202, 450⟩ } [0, 900, 1320, 1376] =
    some ({ st := .symPul, pos := 3, n := 4, bits := 32, code := 0, rep := false }, 3) := by decide

/-! ### Witnesses: a state and operands that meet the hypotheses of each obligation -/

/-! Ready states, one in each session state. -/

theorem witness_ready_off : Ready offState ∧ offState.ses.st = .off := by decide
theorem witness_ready_idle : Ready idleState ∧ idleState.ses.st = .idle := by decide
theorem witness_ready_wait : Ready (waitState 100) ∧ (waitState 100).ses.st = .wait := by decide
theorem witness_ready_running :
    let s := decodeState (decoderStart 4)
    Ready s ∧ s.ses.st = .decode ∧ halted s.cfg s.dec = false := by decide
theorem witness_ready_done :
    let s := decodeState repetitionDone
    Ready s ∧ s.ses.st = .decode ∧ halted s.cfg s.dec = true := by decide

/-! States with the invariant. -/

theorem witness_inv_idle : idleState.Inv where
  cfg := by decide
  buffer := ⟨by decide, by decide, by decide, by decide⟩
  session := ⟨by decide, by decide, by decide, by decide, by decide⟩
  decoder := ⟨by decide, by decide, by decide, by decide, by decide, by decide, by decide, by decide, by decide⟩
  result := ⟨by decide, by decide⟩
  encoder := ⟨by decide, by decide, by decide, by decide⟩

theorem witness_inv_decode : (decodeState (decoderStart 4)).Inv where
  cfg := by decide
  buffer := ⟨by decide, by decide, by decide, by decide⟩
  session := ⟨by decide, by decide, by decide, by decide, by decide⟩
  decoder := ⟨by decide, by decide, by decide, by decide, by decide, by decide, by decide, by decide, by decide⟩
  result := ⟨by decide, by decide⟩
  encoder := ⟨by decide, by decide, by decide, by decide⟩

theorem witness_inv_pending : pendingState.Inv where
  cfg := by decide
  buffer := ⟨by decide, by decide, by decide, by decide⟩
  session := ⟨by decide, by decide, by decide, by decide, by decide⟩
  decoder := ⟨by decide, by decide, by decide, by decide, by decide, by decide, by decide, by decide, by decide⟩
  result := ⟨by decide, by decide⟩
  encoder := ⟨by decide, by decide, by decide, by decide⟩

/-- A cursor that meets the decoder's invariant on the buffer of `bitState` gives a state with the invariant. -/
theorem inv_bitState {d : DecoderRegs} (hn : d.n = 7) (hd : DecoderInv Config.reference d) : (bitState d).Inv := by
  have h7 : ∀ i, i < 7 → (Memory.entry (bitState d).eb i).isSome := by
    show ∀ i, i < 7 → (Memory.entry [(0, 0), (1, 900), (2, 1350), (3, 1406), (4, 1575), (5, 1631), (6, 1687)] i).isSome
    decide
  have hn' : (bitState d).dec.n = 7 := hn
  refine
    { cfg := by show Config.reference.wf = true; decide
      buffer := ⟨?_, ?_, by show 7 ≤ 256; decide, h7⟩
      session := ⟨by show 7 ≤ 7; decide, nofun, nofun, fun _ => ⟨hn, by omega⟩, fun _ i hi => h7 i (by omega)⟩
      decoder := hd
      result := ⟨nofun, nofun⟩
      encoder := ⟨by show 0 < 2 ^ 16; decide, nofun, nofun, fun h => absurd rfl h⟩ }
  · show Memory.wf [(0, 0), (1, 900), (2, 1350), (3, 1406), (4, 1575), (5, 1631), (6, 1687)]
    decide
  · show ∀ e ∈ [(0, (0 : Tick)), (1, 900), (2, 1350), (3, 1406), (4, 1575), (5, 1631), (6, 1687)], e.1 < 256
    decide

/-- A cursor on the buffer of `bitState`. -/
def cursor (st : DState) (pos : Nat) (bits : BitVec 6) : DecoderRegs :=
  { st := st, pos := pos, n := 7, bits := bits, code := 0, rep := false }

/-- What a decoder cycle's statement asks of `bitState`, with the interval it reads. -/
abbrev RunsOn (d : DecoderRegs) (st : DState) (iv : Tick) : Prop :=
  (bitState d).Inv ∧ (bitState d).sampled.rst = false ∧ (bitState d).ses.st = .decode ∧
    halted (bitState d).cfg (bitState d).dec = false ∧ (bitState d).dec.st = st ∧
    intervalAt (bitState d).eb (bitState d).dec.pos = iv

/-- DecoderCycleInIdle, both clauses: 900 is in `W_PS`, 56 is not. -/
theorem witness_idle_match : RunsOn (cursor .idle 0 0) .idle 900 :=
  ⟨inv_bitState rfl ⟨by decide, by decide, by decide, by decide, by decide, by decide, by decide, by decide, by decide⟩,
    by decide⟩
theorem witness_idle_noise : RunsOn (cursor .idle 2 0) .idle 56 :=
  ⟨inv_bitState rfl ⟨by decide, by decide, by decide, by decide, by decide, by decide, by decide, by decide, by decide⟩,
    by decide⟩
/-- DecoderCycleInInit: 450 is in `W_PP`, 169 in neither window; below, 225 is in `W_RP`. -/
theorem witness_init_command : RunsOn (cursor .init 1 0) .init 450 :=
  ⟨inv_bitState rfl ⟨by decide, by decide, by decide, by decide, by decide, by decide, by decide, by decide, by decide⟩,
    by decide⟩
theorem witness_init_noise : RunsOn (cursor .init 3 0) .init 169 :=
  ⟨inv_bitState rfl ⟨by decide, by decide, by decide, by decide, by decide, by decide, by decide, by decide, by decide⟩,
    by decide⟩
/-- DecoderCycleInSymbolSilence: 56 is in `W_SS`, 900 is not. -/
theorem witness_silence_match : RunsOn (cursor .symSil 2 32) .symSil 56 :=
  ⟨inv_bitState rfl ⟨by decide, by decide, by decide, by decide, by decide, by decide, by decide, by decide, by decide⟩,
    by decide⟩
theorem witness_silence_noise : RunsOn (cursor .symSil 0 32) .symSil 900 :=
  ⟨inv_bitState rfl ⟨by decide, by decide, by decide, by decide, by decide, by decide, by decide, by decide, by decide⟩,
    by decide⟩
/-- DecoderCycleInSymbolPulse: 56 is in `W_S0`, 169 in `W_S1`, 450 in neither. -/
theorem witness_pulse_zero : RunsOn (cursor .symPul 5 31) .symPul 56 :=
  ⟨inv_bitState rfl ⟨by decide, by decide, by decide, by decide, by decide, by decide, by decide, by decide, by decide⟩,
    by decide⟩
theorem witness_pulse_one : RunsOn (cursor .symPul 3 32) .symPul 169 :=
  ⟨inv_bitState rfl ⟨by decide, by decide, by decide, by decide, by decide, by decide, by decide, by decide, by decide⟩,
    by decide⟩
theorem witness_pulse_noise : RunsOn (cursor .symPul 1 32) .symPul 450 :=
  ⟨inv_bitState rfl ⟨by decide, by decide, by decide, by decide, by decide, by decide, by decide, by decide, by decide⟩,
    by decide⟩

/-- DecoderCycleInInit, the repetition clause. -/
theorem witness_init_repetition :
    let d : DecoderRegs := { st := .init, pos := 1, n := 4, bits := 0, code := 0, rep := false }
    (decodeState d).Inv ∧ (decodeState d).sampled.rst = false ∧ halted (decodeState d).cfg d = false ∧
      intervalAt (decodeState d).eb 1 = 225 :=
  ⟨{ cfg := by decide
     buffer := ⟨by decide, by decide, by decide, by decide⟩
     session := ⟨by decide, by decide, by decide, by decide, by decide⟩
     decoder := ⟨by decide, by decide, by decide, by decide, by decide, by decide, by decide, by decide, by decide⟩
     result := ⟨by decide, by decide⟩
     encoder := ⟨by decide, by decide, by decide, by decide⟩ }, by decide, by decide, by decide⟩

/-! The command word and the step. -/

/-- OnlyCommandWordsDecode: the two clauses meet at `2 ^ 35`. -/
theorem witness_word_range : 2 ^ 35 - 1 < 2 ^ 35 ∧ 2 ^ 35 ≤ 2 ^ 35 := by decide
/-- EncodeOfDecodeKeepsTheUsedBits, both clauses. -/
theorem witness_used_bits : CmdWord.op 0x4FFFFFFFF#35 = 4#3 ∧ CmdWord.op 0x1FFFFFFFF#35 ≠ 4#3 := by decide
/-- StepRunsTheDecodedCommand, both clauses. -/
theorem witness_step_commands : (given (presenting 0x400000001#35) State.reset).sampled.cmdValid = true ∧
    (given PortIn.quiet State.reset).sampled.cmdValid = false := by decide
/-- The presented-word clauses of the command statements: ready states with opcodes 1 to 4 and 7 on the port. -/
theorem witness_presented (w : CmdWord) : (given (presenting w) offState).sampled.cmdValid = true ∧
    (given (presenting w) offState).sampled.cmdOp = CmdWord.op w ∧
    (given (presenting w) offState).sampled.cmdData = CmdWord.data w := ⟨rfl, rfl, rfl⟩
theorem witness_presented_opcodes : CmdWord.op 0x1FFFFFFFF#35 = 1#3 ∧ CmdWord.op 0x200000000#35 = 2#3 ∧
    CmdWord.op 0x300000000#35 = 3#3 ∧ CmdWord.op 0x400F720DF#35 = 4#3 ∧ 5#3 ≤ CmdWord.op 0x700000000#35 := by decide
theorem witness_presented_ready (w : CmdWord) : Ready (given (presenting w) offState) := by
  show Config.reference.wf = true ∧ false = false ∧ (RsState.off = .decode → _)
  exact ⟨by decide, rfl, nofun⟩

/-- PlacedWordIsRun: the last word, and the fewest bits a table word can have. -/
theorem witness_placed_word : 0x7FFFFFFFF < 2 ^ 35 ∧ 35 ≤ 35 := by decide

/-! Reset and configuration. -/

/-- ResetCycleResetsAllButTheBuffer, OutputsAfterReset. -/
theorem witness_reset_cycle :
    let s := given { presenting 0x100000000#35 with rst := true } offState
    s.cfg.wf = true ∧ s.sampled.rst = true ∧ s.eb ≠ [] := by decide
/-- ConfigurationIsConstant, StepKeepsTheInvariant: a step from a state with the invariant. -/
theorem witness_step_answers : (nextOf (step (decodeState (decoderStart 4)))).isSome = true := by decide

/-! Edge capture. -/

/-- CaptureWritesAndCountsOneEdge: an edge, and a full buffer. -/
theorem witness_capture :
    let s : State := { waitState 100 with line := { s1 := true, s2 := false, prev := true } }
    let full : State := { s with edgeCount := 256 }
    (Ready s ∧ s.ses.st = .wait ∧ s.line.s2 ≠ s.line.prev ∧ s.edgeCount < s.cfg.edgeCap) ∧
      Ready full ∧ ¬ full.edgeCount < full.cfg.edgeCap := by decide

/-- EdgeLatency. -/
def latencyState : State :=
  { idleState with inputs := List.replicate 4 { PortIn.quiet with irRx := false, rxTick := true } }
theorem witness_edge_latency : latencyState.Inv ∧ latencyState.ses.st = .idle ∧ latencyState.edgeCount = 0 ∧
    latencyState.line = { s1 := true, s2 := true, prev := true } ∧
    (∀ p ∈ latencyState.inputs, p.irRx = !true ∧ p.rst = false ∧ command? p ≠ some .rxDisable) :=
  ⟨{ cfg := by decide
     buffer := ⟨by decide, by decide, by decide, by decide⟩
     session := ⟨by decide, by decide, by decide, by decide, by decide⟩
     decoder := ⟨by decide, by decide, by decide, by decide, by decide, by decide, by decide, by decide, by decide⟩
     result := ⟨by decide, by decide⟩
     encoder := ⟨by decide, by decide, by decide, by decide⟩ }, by decide, by decide, by decide, by decide⟩

/-- ReceiveTimerCountsStrobes: cleared, counted at its last value, held. -/
theorem witness_receive_timer :
    let tick : PortIn := { PortIn.quiet with rxTick := true }
    Ready (given tick offState) ∧ (given tick offState).ses.st = .off ∧
      Ready (given tick (waitState 0xFFFFFFFF)) ∧ (given tick (waitState 0xFFFFFFFF)).sampled.rxTick = true := by decide

/-! The session. -/

/-- EnableStartsTheSession, OffStaysOffUntilEnabled. -/
theorem witness_enable : offState.cfg.wf = true ∧ offState.sampled.rst = false ∧ offState.ses.st = .off := by decide
/-- DisableLeavesForOff, from each state. -/
theorem witness_disable : ∀ s ∈ [idleState, waitState 1042, decodeState repetitionDone],
    s.cfg.wf = true ∧ s.sampled.rst = false ∧ s.ses.st ≠ .off := by decide
/-- DroppedCommandsAreNops, SetCodeChangesOnlyThePendingCode: both values of the pending code, and the last opcode. -/
theorem witness_dropped_command :
    (Ready pendingState ∧ pendingState.outputs.txPending = true) ∧
      (Ready offState ∧ offState.outputs.txPending = false) ∧
      5#3 ≤ (given (presenting 0x5DEADBEEF#35) offState).sampled.cmdOp ∧ Ready (given (presenting 0x400F720DF#35) offState) := by
  decide
/-- ActivityRestartsTheTimeout, in `IDLE` and in `WAIT` with the timeout expired. -/
theorem witness_activity : ∀ s ∈ [{ idleState with edgeCount := 1 }, { waitState 2000 with edgeCount := 3 }],
    s.cfg.wf = true ∧ s.sampled.rst = false ∧ (s.ses.st = .idle ∨ s.ses.st = .wait) ∧
      s.edgeCount ≠ s.ses.lastCount := by decide
/-- QuietSessionHolds: `IDLE`, and `WAIT` after 999 ticks. -/
theorem witness_quiet : ∀ s ∈ [idleState, waitState 1041],
    s.cfg.wf = true ∧ s.sampled.rst = false ∧ s.edgeCount = s.ses.lastCount ∧
      (s.ses.st = .idle ∨ (s.ses.st = .wait ∧ (s.rxTime - s.ses.lastAct).toNat < s.cfg.rxTimeoutTicks)) := by decide
/-- TimeoutStartsTheDecode: after exactly 1000 ticks. -/
theorem witness_timeout :
    let s := waitState 1042
    s.cfg.wf = true ∧ s.sampled.rst = false ∧ s.ses.st = .wait ∧ s.edgeCount = s.ses.lastCount ∧
      s.cfg.rxTimeoutTicks ≤ (s.rxTime - s.ses.lastAct).toNat := by decide
/-- DoneDecodeExposesItsResult; OnlyClearTouchesAnExposedResult holds of the other states above. -/
theorem witness_done :
    let s := decodeState repetitionDone
    s.cfg.wf = true ∧ s.sampled.rst = false ∧ s.ses.st = .decode ∧ halted s.cfg s.dec = true := by decide

/-! The encoder. -/

/-- PendingCodeStartsTheTransmission, PendingCodeIsTakenHeldOrConsumed. -/
theorem witness_pending : Ready pendingState ∧ pendingState.tx.st = .idle ∧ pendingState.txPending ≠ 0 := by decide
/-- IdleEncoderWaitsForACode. -/
theorem witness_idle_encoder : Ready offState ∧ offState.tx.st = .idle ∧ offState.txPending = 0 := by decide
/-- EncoderCycleInOnPhase: no strobe, counting at 2, the end of a phase at 1, an epilogue without an OFF phase. -/
theorem witness_on_phase :
    (Ready (given PortIn.quiet (txState .on 0 2)) ∧ (given PortIn.quiet (txState .on 0 2)).sampled.symTick = false) ∧
    (Ready (txState .on 0 2) ∧ (txState .on 0 2).sampled.symTick = true ∧ 1 < (txState .on 0 2).tx.cnt) ∧
    (Ready (txState .on 0 1) ∧ (txState .on 0 1).tx.cnt ≤ 1 ∧
      0 < burstOff Config.reference 0x00F720DF (txState .on 0 1).tx.sym) ∧
    let s : State := { txState .on 33 1 with cfg := { Config.reference with mE := 0 } }
    Ready s ∧ s.tx.cnt ≤ 1 ∧ burstOff s.cfg s.tx.shift s.tx.sym = 0 := by decide
/-- EncoderCycleInOffPhase: counting, the last symbol that has a next one, the epilogue. -/
theorem witness_off_phase :
    (Ready (txState .off 0 2) ∧ (txState .off 0 2).sampled.symTick = true ∧ 1 < (txState .off 0 2).tx.cnt) ∧
    (Ready (txState .off 32 1) ∧ (txState .off 32 1).tx.sym.val < 33) ∧
    (Ready (txState .off 33 1) ∧ (txState .off 33 1).tx.sym.val = 33) := by decide
/-- BurstLengthsFollowTheCode: the first and the last bit symbol. -/
theorem witness_burst_lengths : (1 ≤ (1 : Fin 34).val ∧ (1 : Fin 34).val ≤ 32) ∧
    (1 ≤ (32 : Fin 34).val ∧ (32 : Fin 34).val ≤ 32) := by decide
/-- TransmissionLastsItsFrame, CarrierChangesPerFrame: with and without an OFF phase of the epilogue. -/
theorem witness_transmission : Config.reference.wf = true ∧ ({ Config.reference with mE := 0 } : Config).wf = true := by
  decide
/-- TransmissionLastsItsFrameInCycles: strobes of section 0 of the vectors. -/
theorem witness_transmission_cycles :
    let b : Bench := { Bench.empty with ticks := { clkPerRxTick := 8, clkPerSymTick := 45, rxPhase := 0 } }
    b.ticks.wf = true ∧ b.resets = [] ∧ pendingState.Inv ∧ pendingState.tx.st = .idle ∧ pendingState.txPending ≠ 0 ∧
      0 < frameTicks pendingState.cfg pendingState.txPending * b.ticks.clkPerSymTick :=
  ⟨by decide, by decide, witness_inv_pending, by decide, by decide, by decide⟩

/-! The decoder. -/

/-- DecoderHaltsAtEndOrCompletion: one edge remaining, two, and a complete frame. -/
theorem witness_halted : ∀ d ∈ [cursor .idle 6 0, cursor .init 5 0, cursor .symSil 2 0],
    d.n ≤ Config.reference.edgeCap ∧ d.pos ≤ d.n := by decide

/-- The timestamps of `k` bits of a code after the time `t`: 56 for each silence, 56 or 169 for each pulse
(95_test_vectors.md section 0). -/
def bitTimes (code : Code) : Nat → Tick → List Tick
  | 0, _ => []
  | k + 1, t =>
    (t + 56) :: (t + 56 + if code.getLsbD k then 169 else 56) ::
      bitTimes code k (t + 56 + if code.getLsbD k then 169 else 56)

/-- The 67 timestamps `F(code, b)[0..66]`. -/
def frameTimes (code : Code) (b : Tick) : List Tick := b :: (b + 900) :: (b + 1350) :: bitTimes code 32 (b + 1350)

/-- FullFrameDecodesToItsCode: D-V8's buffer of RED, which has bits of both values. -/
theorem witness_full_frame : Config.reference.wf = true ∧ 67 ≤ Config.reference.edgeCap ∧
    FrameAt Config.reference (entriesFrom 0 (frameTimes 0x00F720DF 0)) 67 0 32 0x00F720DF :=
  ⟨by decide, by decide, ⟨by decide, by decide, by decide, by decide, by decide, by decide⟩⟩

/-- RepetitionFrameDecodes: D-V6, the fewest edges. -/
theorem witness_repetition :
    let m := entriesFrom 0 [0, 900, 1125]
    Config.reference.wf = true ∧ inWin (intervalAt m 0) Config.reference.wPS = true ∧
      inWin (intervalAt m 1) Config.reference.wRP = true ∧ inWin (intervalAt m 1) Config.reference.wPP = false := by
  decide

/-- NoisePairsAreSkipped: D-V13, one pair. -/
theorem witness_noise_pair :
    let m := entriesFrom 0 (0 :: 30 :: frameTimes 0x00F720DF 100)
    (∀ k, k < 1 → inWin (intervalAt m (2 * k)) Config.reference.wPS = false) ∧
      FrameAt Config.reference m 69 (2 * 1) 32 0x00F720DF :=
  ⟨by decide, ⟨by decide, by decide, by decide, by decide, by decide, by decide⟩⟩

/-- TruncatedFrameReturnsTheBitsReceived: no bit, and 31 of 32. -/
theorem witness_truncated :
    FrameAt Config.reference (entriesFrom 0 [0, 900, 1350]) 3 0 0 0x00F720DF ∧
      FrameAt Config.reference (entriesFrom 0 (frameTimes 0x00F720DF 0)) 65 0 31 0x00F720DF ∧
      3 + 2 * 31 ≤ Config.reference.edgeCap :=
  ⟨⟨by decide, by decide, by decide, by decide, by decide, by decide⟩,
    ⟨by decide, by decide, by decide, by decide, by decide, by decide⟩, by decide⟩

/-- DecodeTerminates: no edge, and a full buffer. -/
theorem witness_terminates : Config.reference.wf = true ∧ 0 ≤ Config.reference.edgeCap ∧
    256 ≤ Config.reference.edgeCap := by decide

/-- DecodeDependsOnItsEdgesOnly: another capacity, and a third entry that only one buffer has. -/
theorem witness_depends_only :
    let c : Config := { Config.reference with edgeCap := 16, cntW := 5, rxTimeoutTicks := 7 }
    c.wf = true ∧ Config.reference.wf = true ∧ 2 ≤ c.edgeCap ∧ 2 ≤ Config.reference.edgeCap ∧
      c.wPS = Config.reference.wPS ∧ c.wPP = Config.reference.wPP ∧ c.wRP = Config.reference.wRP ∧
      c.wSS = Config.reference.wSS ∧ c.wS0 = Config.reference.wS0 ∧ c.wS1 = Config.reference.wS1 ∧
      ∀ i, i < 2 → Memory.value [(0, 0), (1, 900)] i = Memory.value [(0, 0), (1, 900), (2, 1350)] i := by decide

/-- CycleDecoderRefinesTheFunctionalDecode: P2's repetition, 2 transitions, a clear in the last cycle. -/
def refinementState : State :=
  { decodeState (decoderStart 4) with inputs := [PortIn.quiet, PortIn.quiet, presenting 0x300000000#35] }
theorem witness_refinement : refinementState.Inv ∧ refinementState.ses.st = .decode ∧
    refinementState.dec = decoderStart refinementState.dec.n ∧
    decodeHalted refinementState.cfg refinementState.eb refinementState.dec.n = .ok (repetitionDone, 2) ∧
    2 < refinementState.inputs.length ∧
    (∀ p ∈ refinementState.inputs, p.rst = false ∧ command? p ≠ some .rxDisable) :=
  ⟨{ cfg := by decide
     buffer := ⟨by decide, by decide, by decide, by decide⟩
     session := ⟨by decide, by decide, by decide, by decide, by decide⟩
     decoder := ⟨by decide, by decide, by decide, by decide, by decide, by decide, by decide, by decide, by decide⟩
     result := ⟨by decide, by decide⟩
     encoder := ⟨by decide, by decide, by decide, by decide⟩ }, by decide, by decide, by rfl, by decide, by decide⟩

/-- The first 67 timestamps that program P1 captures of RED in loopback (95_test_vectors.md section 8). -/
def loopbackTimes : List Tick :=
  [0, 900, 1350, 1407, 1463, 1519, 1575, 1632, 1688, 1744, 1800, 1857, 1913, 1969, 2025, 2082, 2138, 2194, 2250, 2307, 2475,
    2532, 2700, 2757, 2925, 2982, 3150, 3207, 3263, 3319, 3488, 3544, 3713, 3769] ++
  [3938, 3994, 4050, 4107, 4163, 4219, 4388, 4444, 4500, 4557, 4613, 4669, 4725, 4782, 4838, 4894, 4950, 5007, 5175, 5232,
    5400, 5457, 5513, 5569, 5738, 5794, 5963, 6019, 6188, 6244, 6413, 6469, 6638]

/-- EncodedFrameRoundTrips: P1's own measurements. -/
theorem witness_round_trip :
    let c := Config.reference
    let m := entriesFrom 0 loopbackTimes
    c.wf = true ∧ c.roundTripOk = true ∧ loopbackTimes.length = 67 ∧ 67 ≤ c.edgeCap ∧
      ∀ i, i < 66 → c.ticksFloor (framePhase c 0x00F720DF i) ≤ (intervalAt m i).toNat ∧
        (intervalAt m i).toNat ≤ c.ticksCeil (framePhase c 0x00F720DF i) :=
  ⟨by decide, by decide, by decide, by decide, by decide⟩

/-! The machine as a whole. -/

/-- ReceiverIgnoresTheTransmitter, TransmitterIgnoresTheReceiver: an idle and an enabled receive side beside the same
pending code. -/
theorem witness_independent :
    let a := pendingState
    let b : State := { waitState 100 with txPending := 0x00F720DF, inputs := a.inputs }
    b.cfg = a.cfg ∧ b.freeIdx = a.freeIdx ∧ b.tx = a.tx ∧ b.ses ≠ a.ses ∧
      (nextOf (exec .nop a)).isSome = true ∧ (nextOf (exec .nop b)).isSome = true := by decide

/-- NoDecodeWithoutAnEdge, from `IDLE`, with the commands that enter and leave it; a low line at rest in `OFF`. -/
def restState : State :=
  { idleState with inputs := [presenting 0x200000000#35, presenting 0x100000000#35, PortIn.quiet] }
theorem witness_rest : restState.Inv ∧ restState.ses.st = .idle ∧ restState.edgeCount = 0 ∧
    restState.line = { s1 := true, s2 := true, prev := true } ∧ 3 ≤ restState.inputs.length ∧
    (∀ p ∈ restState.inputs, p.rst = false ∧ p.irRx = true) :=
  ⟨{ cfg := by decide
     buffer := ⟨by decide, by decide, by decide, by decide⟩
     session := ⟨by decide, by decide, by decide, by decide, by decide⟩
     decoder := ⟨by decide, by decide, by decide, by decide, by decide, by decide, by decide, by decide, by decide⟩
     result := ⟨by decide, by decide⟩
     encoder := ⟨by decide, by decide, by decide, by decide⟩ }, by decide, by decide, by decide, by decide, by decide⟩

end Sys2Proof.Tests
end

section
/-! The scope's statement (00_scope.md R7): parameters are fixed for the lifetime of an instance. -/

namespace Sys2Proof.Machine

/-- A cycle ends in the reset values or in the registers' next values, and both carry the configuration over. -/
theorem clockCycle_next_cfg {k : CmdStrobes} {s t : State} (h : clockCycle k s = .next t) : t.cfg = s.cfg := by
  obtain ⟨_, ⟨_, rfl⟩ | ⟨_, d, _, rfl⟩⟩ := clockCycle_next h
  · exact afterReset_cfg s
  · exact afterCycle_cfg _ s d

/-- Settles O13: a step is a clock cycle under some command's strobes, and no cycle changes the configuration. -/
theorem configurationIsConstant : Obligations.ConfigurationIsConstant := by
  intro s t h
  rw [step_eq_exec, exec_eq_clockCycle] at h
  exact clockCycle_next_cfg h

end Sys2Proof.Machine
end

section
/-! The output ports of 10_state.md R21, one lemma for each function of the registers that a port shows. -/

namespace Sys2Proof.Machine

/-- R181. -/
theorem carrierEn_iff (s : State) : carrierEn s = true ↔ s.tx.st = .on := beq_iff_eq

/-- R182. -/
theorem symTimerRun_iff (s : State) : symTimerRun s = true ↔ s.tx.st ≠ .idle := bne_iff_ne

/-- R135. -/
theorem rxTimerRun_iff (s : State) : rxTimerRun s = true ↔ s.ses.st ≠ .off := bne_iff_ne

/-- R183. -/
theorem txActive_iff (s : State) : txActive s = true ↔ s.tx.st ≠ .idle := bne_iff_ne

/-- R33. -/
theorem txPendingOut_iff (s : State) : txPendingOut s = true ↔ s.txPending ≠ 0 := bne_iff_ne

/-- R152. -/
theorem rxActive_iff (s : State) : rxActive s = true ↔ s.ses.st = .wait ∨ s.ses.st = .decode := by
  simp only [rxActive, Bool.or_eq_true, beq_iff_eq]

/-- R151. -/
theorem resultPending_iff (r : ResultRegs) : resultPending r = true ↔ r.code ≠ 0 ∨ r.rep = true ∨ r.err = true := by
  simp only [resultPending, Bool.or_eq_true, bne_iff_ne, or_assoc]

/-- R89: the codes on `tx_state_o` tell the encoder's states apart. -/
theorem TxState.code_injective : Function.Injective TxState.code := by
  intro a b h
  cases a <;> cases b <;> simp [TxState.code] at h ⊢

/-- R89: the codes on `rx_state_o` tell the session's states apart. -/
theorem RsState.code_injective : Function.Injective RsState.code := by
  intro a b h
  cases a <;> cases b <;> simp [RsState.code] at h ⊢

/-- Settles O41: each flag is its register's test, and a state port shows a code exactly in the state of that code,
because the codes of R89 differ. -/
theorem outputsFollowTheRegisters : Obligations.OutputsFollowTheRegisters := by
  intro s
  have tx (st : TxState) : s.outputs.txState = st.code ↔ s.tx.st = st := TxState.code_injective.eq_iff
  have rx (st : RsState) : s.outputs.rxState = st.code ↔ s.ses.st = st := RsState.code_injective.eq_iff
  exact ⟨carrierEn_iff s, symTimerRun_iff s, rxTimerRun_iff s, txActive_iff s, txPendingOut_iff s,
    tx .idle, tx .on, tx .off, rfl, rfl, rfl, resultPending_iff s.res, rxActive_iff s,
    rx .off, rx .idle, rx .wait, rx .decode, rfl⟩

end Sys2Proof.Machine
end

section
/-! The reset values of 10_state.md R22 meet each part of the invariant. The parts are stated for every configuration
and, where reset keeps it, every buffer, so that they speak of a reset cycle (R250) as well as of the reset state. -/

namespace Sys2Proof.Machine

/-- With no valid entry, a buffer's invariant is its form and its capacity (R63, R64). -/
theorem bufferInv_zero {c : Config} {m : Memory} (hwf : m.wf) (hb : ∀ e ∈ m, e.1 < c.edgeCap) : BufferInv c m 0 where
  wf := hwf
  bounded := hb
  count_le := Nat.zero_le _
  written := fun _ hi => absurd hi (Nat.not_lt_zero _)

/-- The session is `OFF` with `last_count = 0`, whatever the edge count is. -/
theorem sessionInv_of_reset {s : State} (h : s.ses = State.reset.ses) : SessionInv s := by
  have hst : s.ses.st = .off := congrArg SessionRegs.st h
  have hcount : s.ses.lastCount = 0 := congrArg SessionRegs.lastCount h
  exact {
    lastCount_le := hcount ▸ Nat.zero_le _
    idle := fun _ => hcount
    wait := by simp [hst]
    decode := by simp [hst]
    decodeWritten := by simp [hst] }

/-- The decoder is in `D_IDLE` at position 0 of no edges, with no code and no repetition (R118). -/
theorem decoderInv_reset (c : Config) : DecoderInv c State.reset.dec where
  n_le := Nat.zero_le _
  pos_le := le_rfl
  even := fun _ => rfl
  odd := by simp [State.reset]
  noCode := fun _ => rfl
  codeBits := by simp [State.reset]
  rep := by simp [State.reset]
  bits_pos := by simp [State.reset]
  bits_le := Nat.zero_le _

/-- The empty result is a kind of R90. -/
theorem resultInv_empty : ResultInv ResultRegs.empty := ⟨fun _ => ⟨rfl, rfl⟩, fun _ => rfl⟩

/-- The encoder is in `TX_IDLE`, so no phase is running. -/
theorem encoderInv_reset (c : Config) : EncoderInv c State.reset.tx where
  fits := Nat.two_pow_pos _
  on := by simp [State.reset]
  off := by simp [State.reset]
  code := by simp [State.reset]

/-- The reference profile meets R254. -/
theorem reference_wf : Config.reference.wf = true := by decide

/-- Settles O55: the reset state runs a valid configuration with an empty buffer, and its registers hold the reset
values of each part. -/
theorem resetMeetsTheInvariant : Obligations.ResetMeetsTheInvariant where
  cfg := reference_wf
  buffer := bufferInv_zero reset_memory_wf (fun _ he => absurd he List.not_mem_nil)
  session := sessionInv_of_reset rfl
  decoder := decoderInv_reset Config.reference
  result := resultInv_empty
  encoder := encoderInv_reset Config.reference

end Sys2Proof.Machine
end

section
/-! The command word of 30_encoding.md R80 to R83, R93 and R94: encoding and decoding undo each other on the used bits, a
number decodes when it fits the port, every word has one row of the opcode map, and what `RX_RESTART` assembles to. -/

namespace Sys2Proof

@[simp] theorem op_encode (i : Instr) : (encode i).op = i.opcode := op_make i.opcode i.operand

@[simp] theorem data_encode (i : Instr) : (encode i).data = i.operand := data_make i.opcode i.operand

@[simp] theorem decode_encode (i : Instr) : decode (encode i) = i := by
  rw [decode, op_encode, data_encode, decodeFields_opcode_operand]

/-! Numbers as command words (R80). -/

theorem decodeWord_of_lt {w : Nat} (h : w < 2 ^ 35) : decodeWord w = .ok (decode (BitVec.ofNat 35 w)) := if_pos h

theorem decodeWord_of_ge {w : Nat} (h : 2 ^ 35 ≤ w) : decodeWord w = .error .bitsAbove34 := if_neg (Nat.not_lt.mpr h)

@[simp] theorem decodeWord_toNat (w : CmdWord) : decodeWord w.toNat = .ok (decode w) := by
  rw [decodeWord_of_lt w.isLt, BitVec.ofNat_toNat, BitVec.setWidth_eq]

/-- A table word of at least 35 bits holds every command word. -/
theorem decodeTableWord_toNat {nbits : Nat} (h : 35 ≤ nbits) (w : CmdWord) :
    decodeTableWord nbits w.toNat = some (decode w) := by
  have hw : w.toNat < 2 ^ nbits := lt_of_lt_of_le w.isLt (Nat.pow_le_pow_right two_pos h)
  simp [decodeTableWord, Nat.mod_eq_of_lt hw]

/-- Settles O1: the fields of the encoded word are the command's opcode and operand, from which `decodeFields` gives the
command back; the number and the table word carry the same 35 bits. -/
theorem decodeOfEncodeIsTheCommand : Obligations.DecodeOfEncodeIsTheCommand := by
  intro i
  have word := decodeWord_toNat (encode i)
  have table := decodeTableWord_toNat (nbits := 40) (by decide) (encode i)
  rw [decode_encode] at word table
  exact ⟨decode_encode i, word, table⟩

/-- Settles O5: both cases of `decodeWord`. -/
theorem onlyCommandWordsDecode : Obligations.OnlyCommandWordsDecode :=
  fun _ => ⟨decodeWord_of_lt, decodeWord_of_ge⟩

/-! The used bits of a word (R82): the opcode always, the operand for opcode 4 only. -/

theorem op_encode_decode (w : CmdWord) : (encode (decode w)).op = w.op := by
  rw [op_encode, opcode_decode]

theorem decode_of_op_four {w : CmdWord} (h : w.op = 4#3) : decode w = .txSetCode w.data := by
  rw [decode, h]
  rfl

theorem operand_eq_zero_of_opcode_ne {i : Instr} (h : i.opcode ≠ 4#3) : i.operand = 0#32 := by
  cases i with
  | txSetCode code => exact absurd rfl h
  | _ => rfl

/-- Settles O2: decoding keeps the opcode, opcode 4 keeps the operand too, and no other command has one. -/
theorem encodeOfDecodeKeepsTheUsedBits : Obligations.EncodeOfDecodeKeepsTheUsedBits := by
  intro w
  refine ⟨op_encode_decode w, fun h => ?_, fun h => ?_⟩
  · calc encode (decode w) = CmdWord.make 4#3 w.data := by rw [decode_of_op_four h]; rfl
      _ = w := by rw [← h, make_op_data]
  · rw [← opcode_decode] at h
    rw [data_encode, operand_eq_zero_of_opcode_ne h]

/-! The opcode map (R81). -/

theorem mask_of_mem_opcodeTable : ∀ r ∈ opcodeTable, r.mask = 0x700000000#35 := by decide

/-- The mask of a row covers the opcode bits only (R82). -/
theorem matches_congr_op {r : OpRow} (hr : r ∈ opcodeTable) {v w : CmdWord} (h : v.op = w.op) :
    r.matches v = r.matches w := by
  have masked (u : CmdWord) : u &&& 0x700000000#35 = CmdWord.make u.op 0#32 := by
    rw [← Laws.make_and_mask u.op u.data, make_op_data]
  simp only [OpRow.matches, mask_of_mem_opcodeTable r hr, masked, h]

theorem rowOf_statement (i : Instr) : Laws.RowOf.Statement i := by
  cases i with
  | nop => exact Laws.RowOf.nop
  | rxEnable => exact Laws.RowOf.rxEnable
  | rxDisable => exact Laws.RowOf.rxDisable
  | rxResultClear => exact Laws.RowOf.rxResultClear
  | txSetCode code => exact Laws.RowOf.txSetCode code
  | reserved5 => exact Laws.RowOf.reserved5
  | reserved6 => exact Laws.RowOf.reserved6
  | reserved7 => exact Laws.RowOf.reserved7

/-- Settles O3: a word matches the rows that the encoding of its command matches, for the two have the same opcode. -/
theorem everyWordMatchesOneRow : Obligations.EveryWordMatchesOneRow := by
  intro w
  have rows : (opcodeTable.filter fun q => q.matches w) = opcodeTable.filter fun q => q.matches (encode (decode w)) :=
    List.filter_congr fun _ hq => matches_congr_op hq (op_encode_decode w).symm
  obtain ⟨r, hr, hname⟩ := List.map_eq_singleton_iff.mp (rowOf_statement (decode w))
  exact ⟨r, rows.trans hr, hname⟩

/-- Settles O4: each word's opcode bits, evaluated in the map of R81. -/
theorem spelledOutWordsDecode : Obligations.SpelledOutWordsDecode := by
  unfold Obligations.SpelledOutWordsDecode
  decide

/-! The assembler (R93, R94). -/

theorem assemble_append (xs ys : List AsmLine) : assemble (xs ++ ys) = assemble xs ++ assemble ys :=
  List.flatMap_append

theorem assemble_cons (l : AsmLine) (ls : List AsmLine) :
    assemble (l :: ls) = l.expand.map encode ++ assemble ls := List.flatMap_cons

theorem words_rxRestart : AsmLine.rxRestart.expand.map encode = [0x200000000#35, 0x100000000#35] := by decide

/-- Settles O6: a program assembles line by line, and the line `RX_RESTART` gives these two words. -/
theorem restartAssemblesToDisableThenEnable : Obligations.RestartAssemblesToDisableThenEnable := by
  refine ⟨?_, fun before after => ?_⟩
  · rw [assemble_cons, words_rxRestart]
    rfl
  · rw [assemble_append, assemble_cons, words_rxRestart, List.append_assoc]

end Sys2Proof
end

section
/-! The burst lengths of 30_encoding.md R84 and 42_encoder.md R170, by the symbol's index. -/

namespace Sys2Proof.Machine

@[simp] theorem burstOn_prologue (c : Config) (code : Code) : burstOn c code 0 = c.nP := rfl

@[simp] theorem burstOff_prologue (c : Config) (code : Code) : burstOff c code 0 = c.mP := rfl

@[simp] theorem burstOn_epilogue (c : Config) (code : Code) : burstOn c code 33 = c.nE := rfl

@[simp] theorem burstOff_epilogue (c : Config) (code : Code) : burstOff c code 33 = c.mE := rfl

section
variable (c : Config) (code : Code) {k : Fin 34}

theorem burstOn_bit (h₁ : 1 ≤ k.val) (h₃₂ : k.val ≤ 32) :
    burstOn c code k = if code.getLsbD (32 - k.val) then c.n1 else c.n0 := by
  rw [burstOn, if_neg (by omega), if_neg (by omega), symbolBit]

theorem burstOff_bit (h₁ : 1 ≤ k.val) (h₃₂ : k.val ≤ 32) :
    burstOff c code k = if code.getLsbD (32 - k.val) then c.m1 else c.m0 := by
  rw [burstOff, if_neg (by omega), if_neg (by omega), symbolBit]
end

/-- Settles O36: the prologue, the epilogue, and a bit's symbol, which is neither. -/
theorem burstLengthsFollowTheCode : Obligations.BurstLengthsFollowTheCode := fun c code =>
  ⟨burstOn_prologue c code, burstOff_prologue c code, burstOn_epilogue c code, burstOff_epilogue c code,
    fun _ h₁ h₃₂ => ⟨burstOn_bit c code h₁ h₃₂, burstOff_bit c code h₁ h₃₂⟩⟩

end Sys2Proof.Machine
end

section
/-! The decoder's single transition (40_decoder.md R101 to R116): when a cursor within its edges is halted, what the
transition of each decoder state does, and that it keeps the cursor's invariant (R118). -/

namespace Sys2Proof.Machine

theorem inWin_iff (v : Tick) (w : Window) : inWin v w = true ↔ w.min ≤ v.toNat ∧ v.toNat ≤ w.max := by
  simp only [inWin, Bool.and_eq_true, decide_eq_true_eq]

theorem halted_iff {c : Config} {d : DecoderRegs} (hw : c.wf = true) (hn : d.n ≤ c.edgeCap) (hp : d.pos ≤ d.n) :
    halted c d = true ↔ d.n - d.pos < 2 ∨ (d.st = .symSil ∧ d.bits = 0) := by
  simp only [halted, edgesRemaining_eq hw hn hp, Bool.or_eq_true, Bool.and_eq_true, decide_eq_true_eq, beq_iff_eq]

/-- Settles O42: within its edges a cursor's remaining count is the plain difference. -/
theorem decoderHaltsAtEndOrCompletion : Obligations.DecoderHaltsAtEndOrCompletion := fun _ _ => halted_iff

section
variable {c : Config} {d : DecoderRegs} (iv : Tick) (hw : c.wf = true) (hn : d.n ≤ c.edgeCap) (hp : d.pos + 2 ≤ d.n)
include hw hn hp

/-- R106, R107. -/
theorem fire_of_idle (hst : d.st = .idle) :
    fire c iv d = if inWin iv c.wPS then { d with st := .init, pos := d.pos + 1 } else { d with pos := d.pos + 2 } := by
  simp only [fire, hst, fireIdle, advancePos_eq (k := 1) hw hn (by omega), advancePos_eq (k := 2) hw hn hp]

/-- R108, R109, R110. -/
theorem fire_of_init (hst : d.st = .init) :
    fire c iv d =
      if inWin iv c.wPP then { d with st := .symSil, pos := d.pos + 1, bits := 32, rep := false }
      else if inWin iv c.wRP then { d with st := .symSil, pos := d.pos + 1, bits := 0, rep := true }
      else { d with st := .idle, pos := d.pos + 1 } := by
  simp only [fire, hst, fireInit, advancePos_eq (k := 1) hw hn (by omega)]

/-- R112, R113. -/
theorem fire_of_symSil (hst : d.st = .symSil) (hb : d.bits ≠ 0) :
    fire c iv d =
      if inWin iv c.wSS then { d with st := .symPul, pos := d.pos + 1 } else { d with st := .idle, code := 0 } := by
  simp only [fire, hst, fireSymSil, if_neg hb, advancePos_eq (k := 1) hw hn (by omega)]

/-- R114, R115, R116. -/
theorem fire_of_symPul (hst : d.st = .symPul) :
    fire c iv d =
      if inWin iv c.wS0 then
        { d with st := .symSil, pos := d.pos + 1, bits := d.bits - 1, code := appendBit d.code false }
      else if inWin iv c.wS1 then
        { d with st := .symSil, pos := d.pos + 1, bits := d.bits - 1, code := appendBit d.code true }
      else { d with st := .idle, pos := d.pos + 1, code := 0 } := by
  simp only [fire, hst, fireSymPul, advancePos_eq (k := 1) hw hn (by omega)]

end

/-- A cursor that is not halted has an interval to read and, between two bits, a bit to receive (R103). -/
theorem DecoderInv.not_halted {c : Config} {d : DecoderRegs} (h : DecoderInv c d) (hw : c.wf = true)
    (hh : halted c d = false) : d.pos + 2 ≤ d.n ∧ ¬ (d.st = .symSil ∧ d.bits = 0) :=
  (halted_false_iff hw h.n_le h.pos_le).mp hh

theorem DecoderInv.reads {c : Config} {d : DecoderRegs} (h : DecoderInv c d) (hw : c.wf = true)
    (hh : halted c d = false) : d.pos + 1 < c.edgeCap := by
  have := (h.not_halted hw hh).1
  have := h.n_le
  omega

theorem decoderInv_start {c : Config} {n : Nat} (hn : n ≤ c.edgeCap) : DecoderInv c (decoderStart n) where
  n_le := hn
  pos_le := Nat.zero_le _
  even := fun _ => rfl
  odd := by simp [decoderStart]
  noCode := fun _ => rfl
  codeBits := by simp [decoderStart]
  rep := by simp [decoderStart]
  bits_pos := by simp [decoderStart]
  bits_le := Nat.zero_le _

/-- R118 (d): only a complete frame, a repetition, carries the flag. -/
theorem DecoderInv.rep_eq_false {c : Config} {d : DecoderRegs} (h : DecoderInv c d)
    (hmore : ¬ (d.st = .symSil ∧ d.bits = 0)) : d.rep = false := by
  by_contra hr
  obtain ⟨hst, hbits, -⟩ := h.rep (Bool.eq_true_of_not_eq_false hr)
  exact hmore ⟨hst, hbits⟩

/-- What a cursor in `D_IDLE` owes the invariant. -/
theorem decoderInv_of_idle {c : Config} {d : DecoderRegs} (hst : d.st = .idle) (hn : d.n ≤ c.edgeCap)
    (hp : d.pos ≤ d.n) (heven : d.pos % 2 = 0) (hcode : d.code = 0) (hrep : d.rep = false)
    (hbits : d.bits.toNat ≤ 32) : DecoderInv c d where
  n_le := hn
  pos_le := hp
  even := fun _ => heven
  odd := by simp [hst]
  noCode := fun _ => hcode
  codeBits := by simp [hst]
  rep := by simp [hrep]
  bits_pos := by simp [hst]
  bits_le := hbits

/-- What a cursor in `D_SYMSIL` owes the invariant. -/
theorem decoderInv_of_symSil {c : Config} {d : DecoderRegs} (hst : d.st = .symSil) (hn : d.n ≤ c.edgeCap)
    (hp : d.pos ≤ d.n) (heven : d.pos % 2 = 0) (hcode : d.code.toNat < 2 ^ (32 - d.bits.toNat))
    (hrep : d.rep = true → d.bits = 0 ∧ d.code = 0) (hbits : d.bits.toNat ≤ 32) : DecoderInv c d where
  n_le := hn
  pos_le := hp
  even := fun _ => heven
  odd := by simp [hst]
  noCode := by simp [hst]
  codeBits := fun _ => hcode
  rep := fun hr => ⟨hst, hrep hr⟩
  bits_pos := by simp [hst]
  bits_le := hbits

/-- R118 (c) after one more bit: the code gains a bit as the count of missing bits loses one. -/
theorem appendBit_lt {code : Code} {bits : BitVec 6} (b : Bool) (hpos : 1 ≤ bits.toNat) (hle : bits.toNat ≤ 32)
    (h : code.toNat < 2 ^ (32 - bits.toNat)) : (appendBit code b).toNat < 2 ^ (32 - (bits - 1).toNat) := by
  have hbits : 32 - (bits - 1).toNat = 32 - bits.toNat + 1 := by bv_omega
  have hsmall : 2 ^ (32 - bits.toNat) ≤ 2 ^ 31 := Nat.pow_le_pow_right two_pos (by omega)
  rw [appendBit_toNat b (lt_of_lt_of_le h hsmall), hbits, pow_succ]
  have := b.toNat_le
  omega

theorem decoderInv_receiveBit {c : Config} {d : DecoderRegs} (h : DecoderInv c d) (hst : d.st = .symPul)
    (hp : d.pos + 2 ≤ d.n) (b : Bool) :
    DecoderInv c { d with st := .symSil, pos := d.pos + 1, bits := d.bits - 1, code := appendBit d.code b } := by
  have hpos := h.bits_pos hst
  have hle := h.bits_le
  have hodd := h.odd (.inr hst)
  have hrep : d.rep = false := h.rep_eq_false (by simp [hst])
  exact decoderInv_of_symSil rfl h.n_le (show d.pos + 1 ≤ d.n by omega) (show (d.pos + 1) % 2 = 0 by omega)
    (appendBit_lt b hpos hle (h.codeBits (.inr hst))) (by simp [hrep]) (show (d.bits - 1).toNat ≤ 32 by bv_omega)

/-- R118: every transition of a cursor that is not halted keeps the invariant. -/
theorem decoderInv_fire {c : Config} {d : DecoderRegs} (iv : Tick) (h : DecoderInv c d) (hw : c.wf = true)
    (hh : halted c d = false) : DecoderInv c (fire c iv d) := by
  obtain ⟨hp, hmore⟩ := h.not_halted hw hh
  have hrep := h.rep_eq_false hmore
  have hbits := h.bits_le
  have next : d.pos + 1 ≤ d.n := by omega
  have toEven (ho : d.pos % 2 = 1) : (d.pos + 1) % 2 = 0 := by omega
  have toOdd (he : d.pos % 2 = 0) : (d.pos + 1) % 2 = 1 := by omega
  rcases fire_cases iv hw h.n_le h.pos_le hh with ⟨hst, _, e⟩ | ⟨hst, _, e⟩ | ⟨hst, _, e⟩ | ⟨hst, _, _, e⟩ |
    ⟨hst, _, _, e⟩ | ⟨hst, hb, _, e⟩ | ⟨hst, _, _, e⟩ | ⟨hst, _, e⟩ | ⟨hst, _, _, e⟩ | ⟨hst, _, _, e⟩ <;> rw [e]
  · exact { n_le := h.n_le, pos_le := next, even := by simp, odd := fun _ => toOdd (h.even (.inl hst)),
            noCode := fun _ => h.noCode (.inl hst), codeBits := by simp, rep := by simp [hrep], bits_pos := by simp,
            bits_le := hbits }
  · have he := h.even (.inl hst)
    exact decoderInv_of_idle hst h.n_le hp (show (d.pos + 2) % 2 = 0 by omega) (h.noCode (.inl hst)) hrep hbits
  · exact decoderInv_of_symSil rfl h.n_le next (toEven (h.odd (.inl hst)))
      (by simp [h.noCode (.inr hst)]) (by simp) (by simp)
  · exact decoderInv_of_symSil rfl h.n_le next (toEven (h.odd (.inl hst)))
      (by simp [h.noCode (.inr hst)]) (fun _ => ⟨rfl, h.noCode (.inr hst)⟩) (by simp)
  · exact decoderInv_of_idle rfl h.n_le next (toEven (h.odd (.inl hst))) (h.noCode (.inr hst)) hrep hbits
  · have hb' : 1 ≤ d.bits.toNat := by bv_omega
    exact { n_le := h.n_le, pos_le := next, even := by simp, odd := fun _ => toOdd (h.even (.inr hst)),
            noCode := by simp, codeBits := fun _ => h.codeBits (.inl hst), rep := by simp [hrep],
            bits_pos := fun _ => hb', bits_le := hbits }
  · exact decoderInv_of_idle rfl h.n_le h.pos_le (h.even (.inr hst)) rfl hrep hbits
  · exact decoderInv_receiveBit h hst hp false
  · exact decoderInv_receiveBit h hst hp true
  · exact decoderInv_of_idle rfl h.n_le next (toEven (h.odd (.inr hst))) rfl hrep hbits

end Sys2Proof.Machine
end
section
/-! A decode as a chain of transitions (40_decoder.md R117, R122 to R124): `decoderRun` makes exactly the transitions of
such a chain, every cursor has one that ends halted, within R123's bound, and it depends on the edges only. -/

namespace Sys2Proof.Machine

/-- `k` transitions over the buffer `m`, each from a cursor that is not halted, lead from one cursor to another. -/
inductive Transitions (c : Config) (m : Memory) : Nat → DecoderRegs → DecoderRegs → Prop
  | refl (d : DecoderRegs) : Transitions c m 0 d d
  | head {k : Nat} {d d' e : DecoderRegs} (hh : halted c d = false) (hf : fire c (intervalAt m d.pos) d = d')
      (hr : Transitions c m k d' e) : Transitions c m (k + 1) d e

section
variable {c : Config} {m : Memory}

theorem Transitions.trans {j k : Nat} {d e f : DecoderRegs} (h₁ : Transitions c m j d e) (h₂ : Transitions c m k e f) :
    Transitions c m (j + k) d f := by
  induction h₁ with
  | refl => simpa using h₂
  | @head j _ _ _ hh hf _ ih =>
    rw [Nat.add_right_comm]
    exact .head hh hf (ih h₂)

/-- `decoderRun` follows a chain that ends halted, given the fuel for it. -/
theorem Transitions.decoderRun_eq {k fuel : Nat} {d e : DecoderRegs} (h : Transitions c m k d e) (hw : c.wf = true)
    (hd : DecoderInv c d) (he : halted c e = true) (hk : k ≤ fuel) : decoderRun c m fuel d = .ok (e, k) := by
  induction h generalizing fuel with
  | refl => exact decoderRun_halted fuel he
  | head hh hf _ ih =>
    obtain ⟨fuel, rfl⟩ := Nat.exists_eq_add_of_lt hk
    subst hf
    exact decoderRun_step hw hd.n_le hd.pos_le hh (ih (decoderInv_fire _ hd hw hh) he (by omega))

theorem Transitions.decodeHalted_eq {n k : Nat} {e : DecoderRegs} (h : Transitions c m k (decoderStart n) e)
    (hw : c.wf = true) (hn : n ≤ c.edgeCap) (he : halted c e = true) (hk : k ≤ 2 * n) :
    decodeHalted c m n = .ok (e, k) :=
  h.decoderRun_eq hw (decoderInv_start hn) he hk

/-! Termination (R123). -/

/-- R123's measure: every transition consumes an edge, except the abort of R113, which leaves `D_SYMSIL`. -/
def decodeMeasure (d : DecoderRegs) : Nat := 2 * (d.n - d.pos) + if d.st = .symSil then 1 else 0

theorem decodeMeasure_fire_lt {d : DecoderRegs} (iv : Tick) (hw : c.wf = true) (h : DecoderInv c d)
    (hh : halted c d = false) : decodeMeasure (fire c iv d) < decodeMeasure d := by
  obtain ⟨hp, -⟩ := h.not_halted hw hh
  rcases fire_cases iv hw h.n_le h.pos_le hh with ⟨hst, _, e⟩ | ⟨hst, _, e⟩ | ⟨hst, _, e⟩ | ⟨hst, _, _, e⟩ |
    ⟨hst, _, _, e⟩ | ⟨hst, _, _, e⟩ | ⟨hst, _, _, e⟩ | ⟨hst, _, e⟩ | ⟨hst, _, _, e⟩ | ⟨hst, _, _, e⟩ <;>
  · rw [e]
    simp only [decodeMeasure, hst, reduceCtorEq, if_true, if_false]
    omega

theorem exists_transitions_halted {d : DecoderRegs} (hw : c.wf = true) (h : DecoderInv c d) :
    ∃ k e, Transitions c m k d e ∧ halted c e = true ∧ k ≤ decodeMeasure d := by
  cases hh : halted c d with
  | true => exact ⟨0, d, .refl d, hh, Nat.zero_le _⟩
  | false =>
    have hlt := decodeMeasure_fire_lt (intervalAt m d.pos) hw h hh
    obtain ⟨k, e, ht, he, hk⟩ := exists_transitions_halted hw (decoderInv_fire (intervalAt m d.pos) h hw hh)
    exact ⟨k + 1, e, .head hh rfl ht, he, by omega⟩
termination_by decodeMeasure d

/-- A decode of `n` edges is a chain of at most `2 * n` transitions. -/
theorem exists_transitions_decode {n : Nat} (hw : c.wf = true) (hn : n ≤ c.edgeCap) :
    ∃ k e, Transitions c m k (decoderStart n) e ∧ halted c e = true ∧ k ≤ 2 * n :=
  exists_transitions_halted hw (decoderInv_start hn)

/-- The chain that a functional decode has followed. -/
theorem transitions_of_decodeHalted {n t : Nat} {d : DecoderRegs} (hw : c.wf = true) (hn : n ≤ c.edgeCap)
    (h : decodeHalted c m n = .ok (d, t)) : Transitions c m t (decoderStart n) d ∧ halted c d = true := by
  obtain ⟨k, e, ht, he, hk⟩ := exists_transitions_decode (m := m) hw hn
  obtain ⟨rfl, rfl⟩ : e = d ∧ k = t := by simpa using (ht.decodeHalted_eq hw hn he hk).symm.trans h
  exact ⟨ht, he⟩

end

/-- Settles O51: the chain of transitions ends halted within R123's bound, and `decoderRun` follows it without a
fault. -/
theorem decodeTerminates : Obligations.DecodeTerminates := by
  intro c m n hw hn
  obtain ⟨k, e, ht, he, hk⟩ := exists_transitions_decode (m := m) hw hn
  exact ⟨e, k, ht.decodeHalted_eq hw hn he hk, hk, he⟩

/-! Dependence on the edges and the windows only (R122). -/

/-- Two configurations have the same six windows. -/
structure SameWindows (c c' : Config) : Prop where
  ps : c.wPS = c'.wPS
  pp : c.wPP = c'.wPP
  rp : c.wRP = c'.wRP
  ss : c.wSS = c'.wSS
  s0 : c.wS0 = c'.wS0
  s1 : c.wS1 = c'.wS1

section
variable {c c' : Config} (hw : c.wf = true) (hw' : c'.wf = true)
include hw hw'

theorem halted_congr {d : DecoderRegs} (hn : d.n ≤ c.edgeCap) (hn' : d.n ≤ c'.edgeCap) (hp : d.pos ≤ d.n) :
    halted c d = halted c' d := by
  rw [Bool.eq_iff_iff, halted_iff hw hn hp, halted_iff hw' hn' hp]

theorem fire_congr {d : DecoderRegs} (iv : Tick) (hcc : SameWindows c c') (hn : d.n ≤ c.edgeCap)
    (hn' : d.n ≤ c'.edgeCap) (hp : d.pos + 2 ≤ d.n) (hmore : ¬ (d.st = .symSil ∧ d.bits = 0)) :
    fire c iv d = fire c' iv d := by
  cases hst : d.st with
  | idle => rw [fire_of_idle iv hw hn hp hst, fire_of_idle iv hw' hn' hp hst, hcc.ps]
  | init => rw [fire_of_init iv hw hn hp hst, fire_of_init iv hw' hn' hp hst, hcc.pp, hcc.rp]
  | symSil =>
    have hb : d.bits ≠ 0 := fun hb => hmore ⟨hst, hb⟩
    rw [fire_of_symSil iv hw hn hp hst hb, fire_of_symSil iv hw' hn' hp hst hb, hcc.ss]
  | symPul => rw [fire_of_symPul iv hw hn hp hst, fire_of_symPul iv hw' hn' hp hst, hcc.s0, hcc.s1]

/-- A chain of transitions is one under any configuration with the same windows and any buffer with the same edges. -/
theorem Transitions.congr {m m' : Memory} {k : Nat} {d e : DecoderRegs} (h : Transitions c m k d e)
    (hcc : SameWindows c c') (hd : DecoderInv c d) (hn' : d.n ≤ c'.edgeCap)
    (hm : ∀ i, i < d.n → m.value i = m'.value i) : Transitions c' m' k d e ∧ halted c e = halted c' e := by
  induction h with
  | refl d => exact ⟨.refl d, halted_congr hw hw' hd.n_le hn' hd.pos_le⟩
  | @head k d d' e hh hf _ ih =>
    obtain ⟨hp, hmore⟩ := hd.not_halted hw hh
    have hiv : intervalAt m' d.pos = intervalAt m d.pos := by
      rw [intervalAt, intervalAt, hm d.pos (by omega), hm (d.pos + 1) (by omega)]
    have hd' : DecoderInv c d' := hf ▸ decoderInv_fire _ hd hw hh
    have hn : d'.n = d.n := hf ▸ fire_n c _ d
    obtain ⟨ht, he⟩ := ih hd' (hn ▸ hn') (hn ▸ hm)
    refine ⟨.head ?_ ?_ ht, he⟩
    · rw [← halted_congr hw hw' hd.n_le hn' hd.pos_le, hh]
    · rw [hiv, ← fire_congr hw hw' _ hcc hd.n_le hn' hp hmore, hf]

end

/-- Settles O52: both decodes follow the same chain of transitions. -/
theorem decodeDependsOnItsEdgesOnly : Obligations.DecodeDependsOnItsEdgesOnly := by
  intro c c' m m' n hw hw' hn hn' ps pp rp ss s0 s1 hm
  obtain ⟨k, e, ht, he, hk⟩ := exists_transitions_decode (m := m) hw hn
  obtain ⟨ht', he'⟩ := ht.congr hw hw' ⟨ps, pp, rp, ss, s0, s1⟩ (decoderInv_start hn) hn' hm
  rw [ht.decodeHalted_eq hw hn he hk, ht'.decodeHalted_eq hw' hn' (he' ▸ he) hk]

end Sys2Proof.Machine
end

section
/-! Decodes of given buffers (40_decoder.md R119 to R121, 70_reset_and_hazards.md R264): the chain of transitions of a
repetition, of noise pairs and of a frame, bit by bit. -/

namespace Sys2Proof.Machine

/-- One transition of a cursor with an interval to read and, between two bits, a bit to receive (R103). -/
theorem Transitions.of_fire {c : Config} {m : Memory} {d e : DecoderRegs} (hw : c.wf = true) (hn : d.n ≤ c.edgeCap)
    (hp : d.pos + 2 ≤ d.n) (hmore : ¬ (d.st = .symSil ∧ d.bits = 0)) (hf : fire c (intervalAt m d.pos) d = e) :
    Transitions c m 1 d e :=
  .head ((halted_false_iff hw hn (by omega)).mpr ⟨hp, hmore⟩) hf (.refl e)

/-- The cursor that waits for a prologue at entry `pos` (R104, R107). -/
def waitingAt (n pos : Nat) : DecoderRegs := { decoderStart n with pos := pos }

/-- The cursor that has seen a prologue silence before entry `pos` (R106). -/
def prologueAt (n pos : Nat) : DecoderRegs := { waitingAt n pos with st := .init }

/-- The cursor that has received `k` bits of a frame of `code` whose first entry is `base` (R119). -/
def frameCursor (n base : Nat) (code : Code) (k : Nat) : DecoderRegs :=
  { st := .symSil, pos := base + 2 + 2 * k, n := n, bits := BitVec.ofNat 6 (32 - k), code := code >>> (32 - k),
    rep := false }

section
variable {c : Config} {m : Memory} {n base : Nat} (hw : c.wf = true) (hn : n ≤ c.edgeCap)
include hw hn

/-- R106. -/
theorem transitions_prologueSilence (hp : base + 2 ≤ n) (hiv : inWin (intervalAt m base) c.wPS = true) :
    Transitions c m 1 (waitingAt n base) (prologueAt n (base + 1)) :=
  .of_fire hw hn hp (by simp [waitingAt, decoderStart])
    ((fire_of_idle _ hw hn hp rfl).trans (if_pos hiv))

/-- R107: an interval that is no prologue silence costs one transition and two edges. -/
theorem transitions_noisePair (hp : base + 2 ≤ n) (hiv : inWin (intervalAt m base) c.wPS = false) :
    Transitions c m 1 (waitingAt n base) (waitingAt n (base + 2)) :=
  .of_fire hw hn hp (by simp [waitingAt, decoderStart])
    ((fire_of_idle _ hw hn hp rfl).trans (if_neg (Bool.eq_false_iff.mp hiv)))

/-- R108. -/
theorem transitions_prologuePulse (code : Code) (hp : base + 3 ≤ n)
    (hiv : inWin (intervalAt m (base + 1)) c.wPP = true) :
    Transitions c m 1 (prologueAt n (base + 1)) (frameCursor n base code 0) := by
  have hcode : code >>> 32 = 0#32 := BitVec.ushiftRight_eq_zero le_rfl
  refine .of_fire hw hn hp (by simp [prologueAt]) ((fire_of_init _ hw hn hp rfl).trans ((if_pos hiv).trans ?_))
  simp [prologueAt, waitingAt, decoderStart, frameCursor, hcode]

/-- R121: `j` noise pairs are skipped, two edges at a time. -/
theorem transitions_noisePairs {j : Nat} (hp : 2 * j ≤ n)
    (hiv : ∀ k, k < j → inWin (intervalAt m (2 * k)) c.wPS = false) :
    Transitions c m j (decoderStart n) (waitingAt n (2 * j)) := by
  induction j with
  | zero => exact .refl _
  | succ j ih =>
    exact (ih (by omega) fun k hk => hiv k (by omega)).trans
      (transitions_noisePair hw hn (by omega) (hiv j (by omega)))

end

/-- The bits received shift in the next bit of the code, the most significant first (R91). -/
theorem appendBit_ushiftRight (code : Code) {k : Nat} (hk : k < 32) :
    appendBit (code >>> (32 - k)) (code.getLsbD (31 - k)) = code >>> (32 - (k + 1)) := by
  refine BitVec.eq_of_getLsbD_eq fun i hi => ?_
  rw [appendBit_eq, BitVec.getLsbD_append, BitVec.getLsbD_ushiftRight]
  cases i with
  | zero =>
    rw [show 32 - (k + 1) + 0 = 31 - k by omega]
    cases code.getLsbD (31 - k) <;> simp
  | succ i =>
    rw [if_neg (by omega), BitVec.getLsbD_extractLsb', BitVec.getLsbD_ushiftRight,
      show 32 - k + (0 + (i + 1 - 1)) = 32 - (k + 1) + (i + 1) by omega, decide_eq_true (by omega), Bool.true_and]

/-- R114, R115: the cursor after the pulse of bit `k`. -/
theorem frameCursor_succ (n base : Nat) (code : Code) {k : Nat} (hk : k < 32) :
    { st := .symSil, pos := base + 3 + 2 * k + 1, n := n, bits := BitVec.ofNat 6 (32 - k) - 1,
      code := appendBit (code >>> (32 - k)) (code.getLsbD (31 - k)), rep := false } =
      frameCursor n base code (k + 1) := by
  have hpos : base + 3 + 2 * k + 1 = base + 2 + 2 * (k + 1) := by omega
  have hbits : BitVec.ofNat 6 (32 - k) - 1 = BitVec.ofNat 6 (32 - (k + 1)) := by bv_omega
  rw [frameCursor, hpos, hbits, appendBit_ushiftRight code hk]

section
variable {c : Config} {m : Memory} {n base bits : Nat} {code : Code} (hw : c.wf = true) (hn : n ≤ c.edgeCap)
  (hf : FrameAt c m n base bits code) (hbits : bits ≤ 32)
include hw hn hf

theorem transitions_prologue : Transitions c m 2 (waitingAt n base) (frameCursor n base code 0) := by
  have := hf.edges
  exact (transitions_prologueSilence hw hn (by omega) hf.prologueSilence).trans
    (transitions_prologuePulse hw hn code (by omega) hf.prologuePulse)

include hbits

/-- One bit of a frame: its silence, and its pulse, whose window tells the bit's value. -/
theorem transitions_bit {k : Nat} (hk : k < bits) :
    Transitions c m 2 (frameCursor n base code k) (frameCursor n base code (k + 1)) := by
  have hedges := hf.edges
  have hk32 : k < 32 := by omega
  have hmissing : BitVec.ofNat 6 (32 - k) ≠ 0 := by bv_omega
  have hpos : base + 2 + 2 * k + 1 = base + 3 + 2 * k := by omega
  have hps : base + 2 + 2 * k + 2 ≤ n := by omega
  have hpp : base + 2 + 2 * k + 1 + 2 ≤ n := by omega
  have silence : Transitions c m 1 (frameCursor n base code k)
      { frameCursor n base code k with st := .symPul, pos := base + 2 + 2 * k + 1 } :=
    .of_fire hw hn hps (fun h => hmissing h.2)
      ((fire_of_symSil _ hw hn hps rfl hmissing).trans (if_pos (hf.silence k hk)))
  refine silence.trans (.of_fire hw hn hpp (by simp) ((fire_of_symPul _ hw hn hpp rfl).trans ?_))
  simp only [hpos, ← frameCursor_succ n base code hk32]
  cases hb : code.getLsbD (31 - k) with
  | false => exact if_pos (hf.zero k hk hb)
  | true =>
    obtain ⟨h₁, h₀⟩ := hf.one k hk hb
    exact (if_neg (Bool.eq_false_iff.mp h₀)).trans (if_pos h₁)

/-- R119: the first `k` bits of a frame, after its prologue. -/
theorem transitions_frame {k : Nat} (hk : k ≤ bits) :
    Transitions c m (2 + 2 * k) (waitingAt n base) (frameCursor n base code k) := by
  induction k with
  | zero => exact transitions_prologue hw hn hf
  | succ k ih => exact (ih (by omega)).trans (transitions_bit hw hn hf hbits hk)

end

/-- A frame of all 32 bits is complete (R111). -/
theorem halted_frameCursor_full (c : Config) (n base : Nat) (code : Code) :
    halted c (frameCursor n base code 32) = true := by
  simp [halted, frameCursor]

theorem frameCursor_full (n base : Nat) (code : Code) :
    frameCursor n base code 32 =
      { st := .symSil, pos := base + 66, n := n, bits := 0, code := code, rep := false } := by
  simp [frameCursor]

/-- R119, R121: a full frame behind `j` noise pairs. -/
theorem decodeHalted_frame_behind_noise {c : Config} {m : Memory} {n j : Nat} {code : Code} (hw : c.wf = true)
    (hn : n ≤ c.edgeCap) (hnoise : ∀ k, k < j → inWin (intervalAt m (2 * k)) c.wPS = false)
    (hf : FrameAt c m n (2 * j) 32 code) :
    decodeHalted c m n = .ok (frameCursor n (2 * j) code 32, j + 66) := by
  have hedges := hf.edges
  have chain := (transitions_noisePairs hw hn (by omega) hnoise).trans (transitions_frame hw hn hf le_rfl le_rfl)
  exact chain.decodeHalted_eq hw hn (halted_frameCursor_full c n (2 * j) code) (by omega)

/-- Settles O49: the pairs' transitions, and then the frame's 2 for the prologue and 64 for the bits. -/
theorem noisePairsAreSkipped : Obligations.NoisePairsAreSkipped := by
  intro c m n j code hw hn hnoise hf
  rw [decodeHalted_frame_behind_noise hw hn hnoise hf, frameCursor_full, Nat.add_comm j]

theorem necDecode_of_decodeHalted {c : Config} {m : Memory} {n t : Nat} {d : DecoderRegs}
    (h : decodeHalted c m n = .ok (d, t)) : necDecode c m n = .ok (d.code, d.rep) := by
  rw [necDecode, h]

/-- R147. -/
theorem errorFlag_eq (code : Code) (rep : Bool) : errorFlag code rep = decide (code = 0 ∧ rep = false) := by
  cases rep <;> simp [errorFlag, beq_eq_decide]

/-- Settles O47: no noise pair before the frame. -/
theorem fullFrameDecodesToItsCode : Obligations.FullFrameDecodesToItsCode := by
  intro c m n code hw hn hf
  have h := decodeHalted_frame_behind_noise (j := 0) hw hn (fun k hk => absurd hk k.not_lt_zero) hf
  rw [frameCursor_full] at h
  refine ⟨h, necDecode_of_decodeHalted h, fun hcode => ?_⟩
  simp [resultOf, errorFlag_eq, show ¬ code = 0#32 from hcode]

/-- Settles O50: after `k` bits one edge remains, so the decode halts with the bits received. -/
theorem truncatedFrameReturnsTheBitsReceived : Obligations.TruncatedFrameReturnsTheBitsReceived := by
  intro c m k code hw hk hn hf
  refine ⟨frameCursor (3 + 2 * k) 0 code k, ?_, rfl, rfl⟩
  have hp : 0 + 2 + 2 * k ≤ 3 + 2 * k := by omega
  have hhalted : halted c (frameCursor (3 + 2 * k) 0 code k) = true :=
    (halted_iff hw hn hp).mpr (.inl (show 3 + 2 * k - (0 + 2 + 2 * k) < 2 by omega))
  have chain : Transitions c m (2 + 2 * k) (decoderStart (3 + 2 * k)) (frameCursor (3 + 2 * k) 0 code k) :=
    transitions_frame hw hn hf hk.le le_rfl
  exact chain.decodeHalted_eq hw hn hhalted (by omega)

/-- Settles O48: the prologue silence, and then R109's transition to a complete frame without bits. -/
theorem repetitionFrameDecodes : Obligations.RepetitionFrameDecodes := by
  intro c m n hw h3 hn hps hrp hpp
  have silence : Transitions c m 1 (decoderStart n) (prologueAt n 1) :=
    transitions_prologueSilence (base := 0) hw hn (by omega) hps
  have pulse : Transitions c m 1 (prologueAt n 1)
      { st := .symSil, pos := 2, n := n, bits := 0, code := 0, rep := true } :=
    .of_fire hw hn h3 (by simp [prologueAt])
      ((fire_of_init _ hw hn h3 rfl).trans ((if_neg (Bool.eq_false_iff.mp hpp)).trans (if_pos hrp)))
  exact (silence.trans pulse).decodeHalted_eq hw hn (by simp [halted]) (by omega)

end Sys2Proof.Machine
end

section
/-! The decoder in the machine's cycle (40_decoder.md R105): in `DECODE` each cycle makes one transition, whatever else
the host does but reset and disable. -/

namespace Sys2Proof.Machine

/-- R146: the cycle of a running decoder. -/
theorem exec_decodeRuns {i : Instr} {s : State} (hw : s.cfg.wf = true) (hd : DecoderInv s.cfg s.dec)
    (hr : s.sampled.rst = false) (hk : decodeRuns (strobesOf i) s = true) :
    exec i s = .next (s.afterCycle (strobesOf i) (fire s.cfg (intervalAt s.eb s.dec.pos) s.dec)) := by
  obtain ⟨hs, -, hh⟩ := (decodeRuns_iff i s).mp hk
  have hfires := decoderFires_ok s.eb hw (hd.reads hw hh)
  rw [exec_eq_clockCycle, clockCycle_ok hw hr]
  simp [nextDec, timeoutFires, hs, hk, hfires]

/-- R146 leaves the session alone. -/
theorem nextSes_of_decodeRuns {i : Instr} {s : State} (hk : decodeRuns (strobesOf i) s = true) :
    nextSes (strobesOf i) s = s.ses := by
  obtain ⟨hs, hi, hh⟩ := (decodeRuns_iff i s).mp hk
  simp [nextSes, nextSesDecode, hs, hh, strobesOf_rxDisable hi]

/-- R105: the one transition of a decoder cycle, on the interval at the cursor (R101). -/
theorem exists_next_fire {i : Instr} {s : State} (hinv : s.Inv) (hr : s.sampled.rst = false) (hi : i ≠ .rxDisable)
    (hs : s.ses.st = .decode) (hh : halted s.cfg s.dec = false) : ∃ t : State, exec i s = .next t ∧ t.ses = s.ses ∧
      t.dec = fire s.cfg (s.eb.value (s.dec.pos + 1) - s.eb.value s.dec.pos) s.dec := by
  have hk := (decodeRuns_iff i s).mpr ⟨hs, hi, hh⟩
  exact ⟨_, exec_decodeRuns hinv.cfg hinv.decoder hr hk, nextSes_of_decodeRuns hk, rfl⟩

/-- Settles O43: R106 and R107. -/
theorem decoderCycleInIdle : Obligations.DecoderCycleInIdle := by
  intro i s hinv hr hi hs hh hst
  obtain ⟨hp, -⟩ := hinv.decoder.not_halted hinv.cfg hh
  have h := exists_next_fire hinv hr hi hs hh
  simpa only [fire_of_idle _ hinv.cfg hinv.decoder.n_le hp hst, inWin_iff] using h

/-- Settles O44: R108, R109 and R110. -/
theorem decoderCycleInInit : Obligations.DecoderCycleInInit := by
  intro i s hinv hr hi hs hh hst
  obtain ⟨hp, -⟩ := hinv.decoder.not_halted hinv.cfg hh
  have h := exists_next_fire hinv hr hi hs hh
  simpa only [fire_of_init _ hinv.cfg hinv.decoder.n_le hp hst, inWin_iff] using h

/-- Settles O45: R112 and R113; a cursor that is not halted in `D_SYMSIL` has bits to receive. -/
theorem decoderCycleInSymbolSilence : Obligations.DecoderCycleInSymbolSilence := by
  intro i s hinv hr hi hs hh hst
  obtain ⟨hp, hmore⟩ := hinv.decoder.not_halted hinv.cfg hh
  have h := exists_next_fire hinv hr hi hs hh
  simpa only [fire_of_symSil _ hinv.cfg hinv.decoder.n_le hp hst fun hb => hmore ⟨hst, hb⟩, inWin_iff] using h

/-- Settles O46: R114, R115 and R116. -/
theorem decoderCycleInSymbolPulse : Obligations.DecoderCycleInSymbolPulse := by
  intro i s hinv hr hi hs hh hst
  obtain ⟨hp, -⟩ := hinv.decoder.not_halted hinv.cfg hh
  have h := exists_next_fire hinv hr hi hs hh
  simpa only [fire_of_symPul _ hinv.cfg hinv.decoder.n_le hp hst, inWin_iff, appendBit_eq, if_true,
    Bool.false_eq_true, if_false] using h

end Sys2Proof.Machine
end

section
/-! The invariant of the machine under a cycle, one lemma for each part (40_decoder.md R118, 20_memory.md R63 and R64,
30_encoding.md R90). -/

namespace Sys2Proof.Machine

/-! Edge capture. -/

theorem BufferInv.mono {c : Config} {m : Memory} {n n' : Nat} (h : BufferInv c m n) (hle : n' ≤ n) :
    BufferInv c m n' where
  wf := h.wf
  bounded := h.bounded
  count_le := hle.trans h.count_le
  written := fun i hi => h.written i (by omega)

/-- R133: the next edge's entry is written and counted. -/
theorem BufferInv.write {c : Config} {m : Memory} {n : Nat} (h : BufferInv c m n) (hn : n < c.edgeCap) (v : Tick) :
    BufferInv c (m.write n v) (n + 1) where
  wf := write_wf h.wf n v
  bounded := fun e he => by
    rcases mem_write he with rfl | he
    · exact hn
    · exact h.bounded e he
  count_le := hn
  written := fun i hi => by
    by_cases hin : i = n
    · simp [hin]
    · rw [entry_write_of_ne m v hin]
      exact h.written i (by omega)

/-- The edges counted after capture's part of a cycle (R133, R134), before a clear. -/
def capturedCount (s : State) : Nat := if captureFires s then s.edgeCount + 1 else s.edgeCount

theorem bufferInv_nextEb {s : State} (h : BufferInv s.cfg s.eb s.edgeCount) :
    BufferInv s.cfg (nextEb s) (capturedCount s) := by
  unfold nextEb capturedCount
  cases hc : captureFires s with
  | false => simpa using h
  | true => simpa using h.write ((captureFires_iff s).mp hc).2.2 s.rxTime

theorem isSome_entry_nextEb {s : State} {i : Nat} (h : (s.eb.entry i).isSome) : ((nextEb s).entry i).isSome := by
  rw [entry_nextEb]
  split
  · rfl
  · exact h

/-- R25: `edge_count` is cleared by R137 and R147, and otherwise counts the captured edge. -/
theorem nextEdgeCount_eq (k : CmdStrobes) {s : State} (hw : s.cfg.wf = true) :
    nextEdgeCount k s = if enableFires k s || decodeDone k s then 0 else capturedCount s := by
  unfold nextEdgeCount capturedCount
  cases hc : captureFires s with
  | false => simp
  | true =>
    have hlt := ((captureFires_iff s).mp hc).2.2
    have hcap := (wf_edgeCap hw).2
    simp [addMod_eq (show s.edgeCount + 1 < 2 ^ s.cfg.cntW by omega)]

theorem edgeCount_le_capturedCount (s : State) : s.edgeCount ≤ capturedCount s := by
  unfold capturedCount; split <;> omega

theorem bufferInv_afterCycle {s : State} (h : s.Inv) (k : CmdStrobes) :
    BufferInv s.cfg (nextEb s) (nextEdgeCount k s) := by
  refine (bufferInv_nextEb h.buffer).mono ?_
  rw [nextEdgeCount_eq k h.cfg]
  split
  · exact Nat.zero_le _
  · exact le_rfl

/-! The decoder. -/

/-- What the decoder's registers can be after a cycle, as the session needs them: those of a new decode, or of the same
edges. -/
theorem nextDec_inv {k : CmdStrobes} {s : State} {d : DecoderRegs} (h : s.Inv) (hd : nextDec k s = .ok d) :
    DecoderInv s.cfg d ∧
      ((timeoutFires k s = true ∧ d.n = s.edgeCount) ∨ (timeoutFires k s = false ∧ d.n = s.dec.n)) := by
  rcases nextDec_cases k s with ⟨ht, e⟩ | ⟨hr, ht, e⟩ | ⟨_, ht, e⟩ <;> rw [e] at hd
  · cases hd
    exact ⟨decoderInv_start h.buffer.count_le, .inl ⟨ht, rfl⟩⟩
  · simp only [decodeRuns, Bool.and_eq_true, Bool.not_eq_true'] at hr
    rw [decoderFires_ok s.eb h.cfg (h.decoder.reads h.cfg hr.2)] at hd
    cases hd
    exact ⟨decoderInv_fire _ h.decoder h.cfg hr.2, .inr ⟨ht, fire_n ..⟩⟩
  · cases hd
    exact ⟨h.decoder, .inr ⟨ht, rfl⟩⟩

/-! The result. -/

/-- R147: a decode's result is a code, a repetition or an error, for a repetition has no code (R118 (d)). -/
theorem resultInv_resultOf {c : Config} {d : DecoderRegs} (h : DecoderInv c d) : ResultInv (resultOf d) := by
  constructor
  · intro hrep
    obtain ⟨_, _, hcode⟩ := h.rep hrep
    exact ⟨hcode, by simp [resultOf, errorFlag, show d.rep = true from hrep]⟩
  · intro herr
    have herr : errorFlag d.code d.rep = true := herr
    rw [errorFlag_eq, decide_eq_true_iff] at herr
    exact herr.1

theorem resultInv_nextRes {s : State} (h : s.Inv) (k : CmdStrobes) : ResultInv (nextRes k s) := by
  unfold nextRes
  split
  · exact resultInv_resultOf h.decoder
  · split
    · exact resultInv_empty
    · exact h.result

/-! The encoder. -/

/-- R172. -/
theorem encoderInv_start {c : Config} {code : Code} (hw : c.wf = true) (hcode : code ≠ 0) :
    EncoderInv c (encoderStart c code) := by
  obtain ⟨hpos, hlt⟩ := wf_onPhases hw code 0
  exact { fits := hlt, on := fun _ => ⟨hpos, le_rfl⟩, off := by simp [encoderStart], code := fun _ => hcode }

/-- A running phase that counts down (R174, R177). -/
theorem encoderInv_countDown {c : Config} {e : EncoderRegs} (h : EncoderInv c e) (hcnt : 1 < e.cnt) :
    EncoderInv c { e with cnt := e.cnt - 1 } where
  fits := lt_of_le_of_lt (Nat.sub_le _ _) h.fits
  on := fun hst => by
    have := (h.on hst).2
    exact ⟨show 1 ≤ e.cnt - 1 by omega, show e.cnt - 1 ≤ burstOn c e.shift e.sym by omega⟩
  off := fun hst => by
    have := (h.off hst).2
    exact ⟨show 1 ≤ e.cnt - 1 by omega, show e.cnt - 1 ≤ burstOff c e.shift e.sym by omega⟩
  code := h.code

theorem encoderInv_advance {c : Config} {e : EncoderRegs} (hw : c.wf = true) (h : EncoderInv c e)
    (hst : e.st ≠ .idle) : EncoderInv c (encoderAdvance c e) := by
  rcases encoderAdvance_cases c e with ⟨_, hon, _, hcnt⟩ | ⟨_, hidle⟩
  · obtain ⟨hpos, hlt⟩ := wf_onPhases hw e.shift (encoderAdvance c e).sym
    exact { fits := by rw [hcnt]; exact hlt
            on := fun _ => by rw [hcnt, encoderAdvance_shift]; exact ⟨hpos, le_rfl⟩
            off := by simp [hon]
            code := fun _ => by rw [encoderAdvance_shift]; exact h.code hst }
  · rw [hidle]
    exact { fits := h.fits, on := by simp, off := by simp, code := by simp }

/-- R175. -/
theorem encoderInv_startOff {c : Config} {e : EncoderRegs} (hw : c.wf = true) (h : EncoderInv c e)
    (hst : e.st ≠ .idle) (hpos : 0 < burstOff c e.shift e.sym) :
    EncoderInv c { e with st := .off, cnt := burstOff c e.shift e.sym } where
  fits := (wf_offPhases hw e.shift e.sym).2
  on := by simp
  off := fun _ => ⟨hpos, le_rfl⟩
  code := fun _ => h.code hst

theorem encoderInv_tick {c : Config} {e : EncoderRegs} (hw : c.wf = true) (h : EncoderInv c e) :
    EncoderInv c (encoderTick c e) := by
  unfold encoderTick
  cases hst : e.st with
  | idle => exact h
  | on =>
    have hrun : e.st ≠ .idle := by simp [hst]
    simp only [tickOn]
    split
    · exact encoderInv_countDown h ‹_›
    · split
      · exact encoderInv_startOff hw h hrun ‹_›
      · exact encoderInv_advance hw h hrun
  | off =>
    simp only [tickOff]
    split
    · exact encoderInv_countDown h ‹_›
    · exact encoderInv_advance hw h (by simp [hst])

theorem encoderInv_nextTx {s : State} (h : s.Inv) (p : PortIn) : EncoderInv s.cfg (nextTx p s) := by
  cases hstart : startFires s with
  | true =>
    rw [nextTx_start p hstart]
    exact encoderInv_start h.cfg ((startFires_iff s).mp hstart).2
  | false =>
    rw [nextTx_of_not_start p hstart]
    split
    · exact encoderInv_tick h.cfg h.encoder
    · exact h.encoder

/-! The session. -/

/-- The session at rest with nothing observed (R137, R147). -/
theorem sessionInv_of_idle {u : State} (hst : u.ses.st = .idle) (hcount : u.ses.lastCount = 0) : SessionInv u where
  lastCount_le := hcount ▸ Nat.zero_le _
  idle := fun _ => hcount
  wait := by simp [hst]
  decode := by simp [hst]
  decodeWritten := by simp [hst]

/-- R137. -/
theorem nextSes_of_enableFires {i : Instr} {s : State} (he : enableFires (strobesOf i) s = true) :
    nextSes (strobesOf i) s = { s.ses with st := .idle, lastCount := 0 } := by
  obtain ⟨hs, rfl⟩ := (enableFires_iff i s).mp he
  simp [nextSes, nextSesOff, hs, strobesOf]

/-- Only an enable in `OFF` and a done decode lower `edge_count`. -/
theorem edgeCount_le_nextEdgeCount {k : CmdStrobes} {s : State} (hw : s.cfg.wf = true)
    (he : enableFires k s = false) (hd : decodeDone k s = false) : s.edgeCount ≤ nextEdgeCount k s := by
  rw [nextEdgeCount_eq k hw, he, hd]
  exact edgeCount_le_capturedCount s

theorem decodeDone_eq_false {k : CmdStrobes} {s : State} (h : s.ses.st ≠ .decode ∨ k.rxDisable = true) :
    decodeDone k s = false := by
  rcases h with h | h <;> simp [decodeDone, h]

/-- Each way the session's registers can go keeps the relation of its counts. -/
theorem sessionInv_afterCycle {i : Instr} {s : State} {d : DecoderRegs} (h : s.Inv)
    (hd : nextDec (strobesOf i) s = .ok d) : SessionInv (s.afterCycle (strobesOf i) d) := by
  have hses := h.session
  have hn := (nextDec_inv h hd).2
  cases he : enableFires (strobesOf i) s with
  | true =>
    have e := nextSes_of_enableFires he
    exact sessionInv_of_idle (by simp [e]) (by simp [e])
  | false =>
    have hcount := edgeCount_le_nextEdgeCount h.cfg he
    rcases nextSes_cases (strobesOf i) s with ⟨_, _, e⟩ | ⟨_, hdis, e⟩ | ⟨hst, _, hne, e⟩ | ⟨ht, e⟩ | ⟨_, e⟩ |
      ⟨ht, hdone, e⟩
    · exact sessionInv_of_idle (by simp [e]) (by simp [e])
    · have hle := hcount (decodeDone_eq_false (.inr hdis))
      exact { lastCount_le := by simpa [e, sessionOff] using hses.lastCount_le.trans hle
              idle := by simp [e, sessionOff], wait := by simp [e, sessionOff], decode := by simp [e, sessionOff]
              decodeWritten := by simp [e, sessionOff] }
    · have hle := hcount (decodeDone_eq_false (.inl (by rcases hst with hst | hst <;> simp [hst])))
      have hpos : 1 ≤ s.edgeCount := by
        have := hses.lastCount_le
        omega
      exact { lastCount_le := by simpa [e, sessionActivity] using hle
              idle := by simp [e, sessionActivity], wait := fun _ => by simpa [e, sessionActivity] using hpos
              decode := by simp [e, sessionActivity], decodeWritten := by simp [e, sessionActivity] }
    · obtain ⟨hst, _, hsame, _⟩ := (timeoutFires_iff i s).mp ht
      have hle := hcount (decodeDone_eq_false (.inl (by simp [hst])))
      have hpos := hses.wait hst
      have hdn : d.n = s.edgeCount := by simpa [ht] using hn
      exact { lastCount_le := by simpa [e] using hses.lastCount_le.trans hle
              idle := by simp [e], wait := by simp [e]
              decode := fun _ => by simpa [e, hdn, hsame] using hpos
              decodeWritten := fun _ j hj => isSome_entry_nextEb (h.buffer.written j (hdn ▸ hj)) }
    · exact sessionInv_of_idle (by simp [e]) (by simp [e])
    · have hle := hcount hdone
      have hdn : d.n = s.dec.n := by simpa [ht] using hn
      exact { lastCount_le := by simpa [e] using hses.lastCount_le.trans hle
              idle := by simpa [e] using hses.idle, wait := by simpa [e] using hses.wait
              decode := by simpa [e, hdn] using hses.decode
              decodeWritten := fun hst j hj =>
                isSome_entry_nextEb (hses.decodeWritten (by simpa [e] using hst) j (hdn ▸ hj)) }

/-! The whole machine. -/

theorem inv_afterReset {s : State} (h : s.Inv) : s.afterReset.Inv where
  cfg := h.cfg
  buffer := bufferInv_zero h.buffer.wf h.buffer.bounded
  session := sessionInv_of_reset rfl
  decoder := decoderInv_reset s.cfg
  result := resultInv_empty
  encoder := encoderInv_reset s.cfg

theorem inv_afterCycle {i : Instr} {s : State} {d : DecoderRegs} (h : s.Inv)
    (hd : nextDec (strobesOf i) s = .ok d) : (s.afterCycle (strobesOf i) d).Inv where
  cfg := h.cfg
  buffer := bufferInv_afterCycle h (strobesOf i)
  session := sessionInv_afterCycle h hd
  decoder := (nextDec_inv h hd).1
  result := resultInv_nextRes h (strobesOf i)
  encoder := encoderInv_nextTx h s.sampled

theorem inv_of_exec {i : Instr} {s t : State} (h : s.Inv) (he : exec i s = .next t) : t.Inv := by
  rw [exec_eq_clockCycle] at he
  obtain ⟨_, ⟨_, rfl⟩ | ⟨_, d, hd, rfl⟩⟩ := clockCycle_next he
  · exact inv_afterReset h
  · exact inv_afterCycle h hd

/-- Settles O56: a step is a reset cycle or a cycle of some command, and each part of the machine keeps its part of the
invariant. -/
theorem stepKeepsTheInvariant : Obligations.StepKeepsTheInvariant := by
  intro s t h hstep
  rw [step_eq_exec] at hstep
  exact inv_of_exec h hstep

end Sys2Proof.Machine
end

section
/-! The machine's decode refines the functional one (40_decoder.md R124, 41_session.md R146, R147): each cycle makes one
transition of the chain, and the cycle after the last one exposes the result. -/

namespace Sys2Proof.Machine

theorem run_succ {s s' : State} (h : step s = .next s') (n : Nat) :
    Host.Core.run Sys2Proof.core (n + 1) s = Host.Core.run Sys2Proof.core n s' := by
  have h' : Sys2Proof.core.step s = .next s' := h
  simp only [Host.Core.run, h']

/-- R147, as the cycle of a done decode. -/
theorem exec_decodeDone {i : Instr} {s : State} (hw : s.cfg.wf = true) (hr : s.sampled.rst = false)
    (hk : decodeDone (strobesOf i) s = true) :
    ∃ u : State, exec i s = .next u ∧ u.ses.st = .idle ∧ u.edgeCount = 0 ∧ u.res = resultOf s.dec ∧ u.eb = s.eb := by
  obtain ⟨hs, hi, hh⟩ := (decodeDone_iff i s).mp hk
  have ht : timeoutFires (strobesOf i) s = false := by simp [timeoutFires, hs]
  have hd : decodeRuns (strobesOf i) s = false := by simp [decodeRuns, hh]
  refine ⟨_, exec_without_decoder hw hr ht hd, ?_, ?_, ?_, nextEb_of_decode hs⟩
  · simp [nextSes, nextSesDecode, hs, hh, strobesOf_rxDisable hi]
  · simp [nextEdgeCount_eq _ hw, hk]
  · simp [nextRes, hk]

/-- A listed cycle without reset and `RX_DISABLE`. -/
theorem sampled_of_listed {s : State} (hlen : 0 < s.inputs.length)
    (hin : ∀ p ∈ s.inputs, p.rst = false ∧ command? p ≠ some .rxDisable) :
    s.sampled.rst = false ∧ (command? s.sampled).getD .nop ≠ .rxDisable := by
  obtain ⟨p, ps, hps⟩ := List.exists_cons_of_length_pos hlen
  obtain ⟨hrst, hcmd⟩ := hin p (by simp [hps])
  rw [sampled_of_inputs hps]
  refine ⟨hrst, ?_⟩
  cases hc : command? p with
  | none => simp
  | some i => simpa [hc] using hcmd

/-- In `DECODE` the machine follows the decoder's chain of transitions and then exposes the result, whatever it is given
but reset and disable. -/
theorem run_of_transitions {t : Nat} {s : State} {d : DecoderRegs} (hinv : s.Inv) (hs : s.ses.st = .decode)
    (ht : Transitions s.cfg s.eb t s.dec d) (hd : halted s.cfg d = true) (hlen : t < s.inputs.length)
    (hin : ∀ p ∈ s.inputs, p.rst = false ∧ command? p ≠ some .rxDisable) :
    ∃ u : State, Host.Core.run Sys2Proof.core (t + 1) s = .next u ∧ u.ses.st = .idle ∧ u.edgeCount = 0 ∧
      u.res = resultOf d ∧ u.eb = s.eb := by
  induction t generalizing s with
  | zero =>
    obtain ⟨hr, hi⟩ := sampled_of_listed hlen hin
    cases ht
    obtain ⟨u, hu, hrest⟩ := exec_decodeDone hinv.cfg hr ((decodeDone_iff _ s).mpr ⟨hs, hi, hd⟩)
    exact ⟨u, run_succ ((step_eq_exec s).trans hu) 0, hrest⟩
  | succ t ih =>
    obtain ⟨hr, hi⟩ := sampled_of_listed (by omega) hin
    cases ht with
    | head hh hf ht =>
      have hk := (decodeRuns_iff _ s).mpr ⟨hs, hi, hh⟩
      have hexec := exec_decodeRuns hinv.cfg hinv.decoder hr hk
      have heb := nextEb_of_decode hs
      have rest := ih (inv_of_exec hinv hexec) (by simpa [nextSes_of_decodeRuns hk] using hs)
        (by simpa [heb, hf] using ht) hd (by simpa [State.laterInputs] using Nat.lt_sub_of_add_lt hlen)
        fun p hp => hin p (List.mem_of_mem_tail hp)
      rw [run_succ ((step_eq_exec s).trans hexec)]
      simpa only [afterCycle_eb, heb] using rest

/-- Settles O53: the functional decode has followed a chain of transitions, and the machine follows the same one. -/
theorem cycleDecoderRefinesTheFunctionalDecode : Obligations.CycleDecoderRefinesTheFunctionalDecode := by
  intro s d t hinv hs hstart hdec hlen hin
  obtain ⟨ht, hd⟩ := transitions_of_decodeHalted hinv.cfg hinv.decoder.n_le hdec
  obtain ⟨u, hu, hst, hcount, hres, heb⟩ := run_of_transitions hinv hs (hstart ▸ ht) hd hlen hin
  exact ⟨u, hu, hst, hcount, by rw [hres, resultOf, errorFlag_eq], heb⟩

end Sys2Proof.Machine
end

section
/-! What edge capture, the receive timer and the receive session make of their registers in a cycle (41_session.md R130
to R150), over the command and the session's state, and when the cycle holds the decoder. -/

namespace Sys2Proof.Machine

/-- R147 before R149 (R150). -/
theorem nextRes_eq (i : Instr) (s : State) :
    nextRes (strobesOf i) s =
      if s.ses.st = .decode ∧ i ≠ .rxDisable ∧ halted s.cfg s.dec = true then resultOf s.dec
      else if i = .rxResultClear then ResultRegs.empty
      else s.res := by
  simp only [nextRes, decodeDone_iff, strobesOf_rxResultClear_iff]

/-- Where no decode is done in a cycle, only a clear writes the result (R149). -/
theorem nextRes_of_not_done {i : Instr} {s : State}
    (h : ¬ (s.ses.st = .decode ∧ i ≠ .rxDisable ∧ halted s.cfg s.dec = true)) :
    nextRes (strobesOf i) s = if i = .rxResultClear then ResultRegs.empty else s.res := by
  rw [nextRes_eq, if_neg h]

/-- R136 before R135. -/
theorem nextRxTime_eq (i : Instr) (p : PortIn) (s : State) :
    nextRxTime (strobesOf i) p s =
      if s.ses.st = .off ∧ i = .rxEnable then 0
      else if s.ses.st ≠ .off ∧ p.rxTick = true then s.rxTime + 1
      else s.rxTime := by
  simp only [nextRxTime, enableFires_iff, Bool.and_eq_true, bne_iff_ne]

/-- R133, R134: without a captured edge the buffer and what is counted stay. -/
theorem nextEb_of_no_capture {s : State} (h : captureFires s = false) : nextEb s = s.eb := by
  simp [nextEb, h]

theorem capturedCount_of_no_capture {s : State} (h : captureFires s = false) : capturedCount s = s.edgeCount := by
  simp [capturedCount, h]

/-- R132. -/
theorem captureFires_of_disabled {s : State} (h : s.ses.st = .off ∨ s.ses.st = .decode) : captureFires s = false := by
  rcases h with h | h <;> simp [captureFires, captureEnabled, h]

section
variable {s : State} (i : Instr)

/-- R137. -/
theorem nextSes_of_off (hs : s.ses.st = .off) :
    nextSes (strobesOf i) s = if i = .rxEnable then { s.ses with st := .idle, lastCount := 0 } else s.ses := by
  simp only [nextSes, hs, nextSesOff, strobesOf_rxEnable_iff]

/-- R138, R139, R140. -/
theorem nextSes_of_idle (hs : s.ses.st = .idle) :
    nextSes (strobesOf i) s =
      if i = .rxDisable then sessionOff s
      else if s.edgeCount ≠ s.ses.lastCount then sessionActivity s
      else s.ses := by
  simp only [nextSes, hs, nextSesIdle, strobesOf_rxDisable_iff, countChanged_iff]

/-- R141, R142, R143, R144. -/
theorem nextSes_of_wait (hs : s.ses.st = .wait) :
    nextSes (strobesOf i) s =
      if i = .rxDisable then sessionOff s
      else if s.edgeCount ≠ s.ses.lastCount then sessionActivity s
      else if s.cfg.rxTimeoutTicks ≤ (s.rxTime - s.ses.lastAct).toNat then { s.ses with st := .decode }
      else s.ses := by
  simp only [nextSes, hs, nextSesWait, strobesOf_rxDisable_iff, countChanged_iff, timeoutExpired_iff]

/-- R145, R147, R146. -/
theorem nextSes_of_decode (hs : s.ses.st = .decode) :
    nextSes (strobesOf i) s =
      if i = .rxDisable then sessionOff s
      else if halted s.cfg s.dec = true then { s.ses with st := .idle, lastCount := 0 }
      else s.ses := by
  simp only [nextSes, hs, nextSesDecode, strobesOf_rxDisable_iff]

/-- R138, R141 and R145 come first in every state outside `OFF` (R150). -/
theorem nextSes_rxDisable (hs : s.ses.st ≠ .off) : nextSes (strobesOf .rxDisable) s = sessionOff s := by
  cases hst : s.ses.st with
  | off => exact absurd hst hs
  | idle => exact nextSes_of_idle .rxDisable hst
  | wait => exact nextSes_of_wait .rxDisable hst
  | decode => exact nextSes_of_decode .rxDisable hst

end

/-- R105: a cycle in which neither the timeout nor the decoder's own rule fires holds the decoder's registers. -/
theorem exec_decoder_held {i : Instr} {s : State} (hw : s.cfg.wf = true) (hr : s.sampled.rst = false)
    (hwait : s.ses.st = .wait → i ≠ .rxDisable → s.edgeCount = s.ses.lastCount →
      (s.rxTime - s.ses.lastAct).toNat < s.cfg.rxTimeoutTicks)
    (hdecode : s.ses.st = .decode → i ≠ .rxDisable → halted s.cfg s.dec = true) :
    exec i s = .next (s.afterCycle (strobesOf i) s.dec) := by
  refine exec_without_decoder hw hr (Bool.eq_false_iff.mpr fun ht => ?_) (Bool.eq_false_iff.mpr fun hd => ?_)
  · obtain ⟨hs, hi, hcount, hexpired⟩ := (timeoutFires_iff i s).mp ht
    exact absurd hexpired (Nat.not_le.mpr (hwait hs hi hcount))
  · obtain ⟨hs, hi, hh⟩ := (decodeRuns_iff i s).mp hd
    simp [hdecode hs hi] at hh

end Sys2Proof.Machine
end

section
/-! The statements of 41_session.md about one cycle: edge capture and the receive timer, the session's transitions, and
`RX_RESULT_CLEAR` against a cycle without a command (43_host_commands.md R204). -/

namespace Sys2Proof.Machine

/-! Edge capture and the receive timer (R130 to R136). -/

/-- Settles O14: the line registers' next values do not depend on the command or the session. -/
theorem synchroniserShiftsEveryCycle : Obligations.SynchroniserShiftsEveryCycle := by
  intro i s h
  obtain ⟨d, -, e⟩ := exec_ready h i
  exact ⟨_, e, rfl⟩

/-- Settles O15: the one entry written, the count with its clears, and the result outside a done decode. -/
theorem captureWritesAndCountsOneEdge : Obligations.CaptureWritesAndCountsOneEdge := by
  intro i s h
  obtain ⟨d, -, e⟩ := exec_ready h i
  refine ⟨_, e, fun j => ?_, ?_, fun hs hi => ?_⟩
  · simp only [afterCycle_eb, entry_nextEb, captureFires_iff, and_assoc]
  · simp only [afterCycle_edgeCount, nextEdgeCount_eq _ h.1, capturedCount, Bool.or_eq_true, enableFires_iff,
      decodeDone_iff, captureFires_iff]
  · have hdone : s.ses.st ≠ .decode := by rcases hs with hs | hs <;> simp [hs]
    exact (nextRes_of_not_done fun hd => hdone hd.1).trans (if_neg hi)

/-- Settles O17: R136 and R135, with the session's state on `rx_timer_run_o`. -/
theorem receiveTimerCountsStrobes : Obligations.ReceiveTimerCountsStrobes := by
  intro i s h
  obtain ⟨d, -, e⟩ := exec_ready h i
  exact ⟨_, e, rxTimerRun_iff s, nextRxTime_eq i s.sampled s⟩

/-! The session's transitions (R137 to R150). -/

/-- Settles O18: R137 and R136; capture is disabled in `OFF` and the decoder stands still. -/
theorem enableStartsTheSession : Obligations.EnableStartsTheSession := by
  intro s hw hr hs
  have hcap := captureFires_of_disabled (.inl hs)
  have hen : enableFires (strobesOf .rxEnable) s = true := (enableFires_iff _ s).mpr ⟨hs, rfl⟩
  refine ⟨_, exec_decoder_held (i := .rxEnable) hw hr (by simp [hs]) (by simp [hs]), nextSes_of_off _ hs, ?_, ?_, ?_,
    nextEb_of_no_capture hcap, rfl⟩
  · exact (nextRxTime_eq _ _ s).trans (if_pos ⟨hs, rfl⟩)
  · simp [nextEdgeCount_eq _ hw, hen]
  · exact nextRes_of_not_done (by simp [hs])

/-- Settles O19: in `OFF` no rule but R137 writes these registers. -/
theorem offStaysOffUntilEnabled : Obligations.OffStaysOffUntilEnabled := by
  intro i s hw hr hs hi
  have hcap := captureFires_of_disabled (.inl hs)
  refine ⟨_, exec_decoder_held hw hr (by simp [hs]) (by simp [hs]), ?_, ?_, ?_, nextEb_of_no_capture hcap, rfl⟩
  · exact (nextSes_of_off i hs).trans (if_neg hi)
  · simp [nextRxTime_eq, hs, hi]
  · have hen : enableFires (strobesOf i) s = false := Bool.eq_false_iff.mpr fun h => hi ((enableFires_iff i s).mp h).2
    simp [nextEdgeCount_eq _ hw, hen, decodeDone_eq_false (k := strobesOf i) (s := s) (.inl (by simp [hs])),
      capturedCount_of_no_capture hcap]

/-- Settles O20: the disable stands before the timeout, the decoder's rule and the result's exposure (R150). -/
theorem disableLeavesForOff : Obligations.DisableLeavesForOff := by
  intro s hw hr hs
  refine ⟨_, exec_decoder_held (i := .rxDisable) hw hr (by simp) (by simp), nextSes_rxDisable hs,
    nextRes_of_not_done (by simp), rfl, fun hdec => ⟨?_, nextEb_of_decode hdec⟩⟩
  have hen : enableFires (strobesOf .rxDisable) s = false := by simp [enableFires, hdec]
  simp [nextEdgeCount_eq _ hw, hen, decodeDone_eq_false (k := strobesOf .rxDisable) (s := s) (.inr rfl),
    capturedCount_of_no_capture (captureFires_of_disabled (.inr hdec))]

/-- Settles O22: R139 and R142; a changed count also keeps the timeout from firing. -/
theorem activityRestartsTheTimeout : Obligations.ActivityRestartsTheTimeout := by
  intro i s hw hr hi hs hcount
  have hdecode : s.ses.st ≠ .decode := by rcases hs with hs | hs <;> simp [hs]
  refine ⟨_, exec_decoder_held hw hr (fun _ _ h => absurd h hcount) (fun h => absurd h hdecode), ?_, rfl⟩
  rcases hs with hs | hs
  · exact (nextSes_of_idle i hs).trans ((if_neg hi).trans (if_pos hcount))
  · exact (nextSes_of_wait i hs).trans ((if_neg hi).trans (if_pos hcount))

/-- Settles O23: R140 and R144. -/
theorem quietSessionHolds : Obligations.QuietSessionHolds := by
  intro i s hw hr hi hcount hs
  rcases hs with hs | ⟨hs, hearly⟩
  · refine ⟨_, exec_decoder_held hw hr (by simp [hs]) (by simp [hs]), ?_, rfl⟩
    rw [afterCycle_ses, nextSes_of_idle i hs, if_neg hi, if_neg (not_not.mpr hcount)]
  · refine ⟨_, exec_decoder_held hw hr (fun _ _ _ => hearly) (by simp [hs]), ?_, rfl⟩
    rw [afterCycle_ses, nextSes_of_wait i hs, if_neg hi, if_neg (not_not.mpr hcount),
      if_neg (Nat.not_le.mpr hearly)]

/-- Settles O24: R143 fires, and the decoder starts on the edges counted (R104). -/
theorem timeoutStartsTheDecode : Obligations.TimeoutStartsTheDecode := by
  intro i s hw hr hi hs hcount hexpired
  have ht := (timeoutFires_iff i s).mpr ⟨hs, hi, hcount, hexpired⟩
  refine ⟨_, exec_timeout hw hr ht, ?_, rfl⟩
  rw [afterCycle_ses, nextSes_of_wait i hs, if_neg hi, if_neg (not_not.mpr hcount), if_pos hexpired]

/-- Settles O25: R147 stands before R149 and R146. -/
theorem doneDecodeExposesItsResult : Obligations.DoneDecodeExposesItsResult := by
  intro i s hw hr hi hs hh
  have hdone := (decodeDone_iff i s).mpr ⟨hs, hi, hh⟩
  refine ⟨_, exec_decoder_held hw hr (by simp [hs]) (fun _ _ => hh), ?_, ?_, ?_, nextEb_of_decode hs, rfl⟩
  · rw [afterCycle_res, nextRes_eq, if_pos ⟨hs, hi, hh⟩, resultOf, errorFlag_eq]
  · simp [nextEdgeCount_eq _ hw, hdone]
  · exact (nextSes_of_decode i hs).trans ((if_neg hi).trans (if_pos hh))

/-- Settles O26: R149. -/
theorem onlyClearTouchesAnExposedResult : Obligations.OnlyClearTouchesAnExposedResult := by
  intro i s h hdone
  obtain ⟨d, -, e⟩ := exec_ready h i
  exact ⟨_, e, nextRes_of_not_done hdone⟩

/-! `RX_RESULT_CLEAR` against a cycle without a command (R204). -/

/-- R80: a step with `cmd_valid_i = 1` runs the command of the opcode and operand on the port. -/
theorem step_of_cmdValid {s : State} (h : s.sampled.cmdValid = true) :
    step s = exec (decodeFields s.sampled.cmdOp s.sampled.cmdData) s := by
  simp [step_eq_exec, command?, h, commandWord, decode]

/-- No register but the result reads the clear's strobe. -/
theorem afterCycle_rxResultClear (s : State) (d : DecoderRegs) :
    s.afterCycle (strobesOf .rxResultClear) d =
      { s.afterCycle (strobesOf .nop) d with res := nextRes (strobesOf .rxResultClear) s } := rfl

/-- The clear moves the decoder as a cycle without a command does. -/
theorem exec_rxResultClear_of_nop {s : State} {d : DecoderRegs} (h : Ready s)
    (hd : nextDec (strobesOf .nop) s = .ok d) :
    exec .rxResultClear s = .next (s.afterCycle (strobesOf .rxResultClear) d) := by
  have hd' : nextDec (strobesOf .rxResultClear) s = .ok d := hd
  rw [exec_eq_clockCycle, clockCycle_ok h.1 h.2.1 hd']

/-- Settles O27: both cycles move the decoder alike, and a done decode gives both the same result. -/
theorem resultClearChangesOnlyTheResult : Obligations.ResultClearChangesOnlyTheResult := by
  intro s h
  obtain ⟨d, hd, e⟩ := exec_ready h .nop
  refine ⟨_, e, ?_, fun hvalid hop => ?_⟩
  · rw [exec_rxResultClear_of_nop h hd, afterCycle_rxResultClear]
    split
    · next hdone =>
      obtain ⟨hs, hh⟩ := hdone
      have hres (i : Instr) (hi : i ≠ .rxDisable) : nextRes (strobesOf i) s = resultOf s.dec :=
        (nextRes_eq i s).trans (if_pos ⟨hs, hi, hh⟩)
      rw [hres .rxResultClear (by simp), ← hres .nop (by simp)]
      rfl
    · next hdone =>
      rw [nextRes_of_not_done fun ⟨hs, _, hh⟩ => hdone ⟨hs, hh⟩]
      rfl
  · rw [step_of_cmdValid hvalid, hop]
    rfl

end Sys2Proof.Machine
end

section
/-! The session at rest (41_session.md R153): with nothing counted and nothing observed, a still line starts no decode,
whatever the host does. -/

namespace Sys2Proof.Machine

/-- The session in `OFF` or `IDLE` with an empty buffer, while the line rests at a level. -/
structure Resting (level : Bool) (s : State) : Prop where
  cfg : s.cfg.wf = true
  st : s.ses.st = .off ∨ s.ses.st = .idle
  edgeCount : s.edgeCount = 0
  lastCount : s.ses.lastCount = 0
  line : s.line = { s1 := level, s2 := level, prev := level }

theorem Resting.no_capture {level : Bool} {s : State} (h : Resting level s) : captureFires s = false := by
  simp [captureFires, edgeDetected, h.line]

/-- The session moves between `OFF` and `IDLE` only, and has observed no edge. -/
theorem Resting.nextSes {level : Bool} {s : State} (h : Resting level s) (i : Instr) :
    ((nextSes (strobesOf i) s).st = .off ∨ (nextSes (strobesOf i) s).st = .idle) ∧
      (nextSes (strobesOf i) s).lastCount = 0 := by
  have hlast := h.lastCount
  rcases h.st with hs | hs
  · rw [nextSes_of_off i hs]
    split
    · exact ⟨.inr rfl, rfl⟩
    · exact ⟨.inl hs, hlast⟩
  · rw [nextSes_of_idle i hs, if_neg (not_not.mpr (h.edgeCount.trans hlast.symm))]
    split
    · exact ⟨.inl rfl, hlast⟩
    · exact ⟨.inr hs, hlast⟩

/-- Every command's cycle on a still line keeps the session at rest. -/
theorem Resting.afterCycle {level : Bool} {s : State} (h : Resting level s) (hline : s.sampled.irRx = level) (i : Instr)
    (d : DecoderRegs) : Resting level (s.afterCycle (strobesOf i) d) where
  cfg := h.cfg
  st := (h.nextSes i).1
  edgeCount := by
    rw [afterCycle_edgeCount, nextEdgeCount_eq _ h.cfg, capturedCount_of_no_capture h.no_capture, h.edgeCount, ite_self]
  lastCount := (h.nextSes i).2
  line := by simp [nextLine, h.line, hline]

/-- At rest no decode starts or runs. -/
theorem Resting.exec_eq {level : Bool} {s : State} (h : Resting level s) (hr : s.sampled.rst = false) (i : Instr) :
    exec i s = .next (s.afterCycle (strobesOf i) s.dec) := by
  have hwait : s.ses.st ≠ .wait := by rcases h.st with hs | hs <;> simp [hs]
  have hdecode : s.ses.st ≠ .decode := by rcases h.st with hs | hs <;> simp [hs]
  exact exec_decoder_held h.cfg hr (fun hs => absurd hs hwait) (fun hs => absurd hs hdecode)

/-- R153: any number of cycles at rest, whatever the host presents, leaves the decoder alone. -/
theorem Resting.run {level : Bool} {s : State} {n : Nat} (h : Resting level s) (hlen : n ≤ s.inputs.length)
    (hin : ∀ p ∈ s.inputs, p.rst = false ∧ p.irRx = level) :
    ∃ t : State, Host.Core.run Sys2Proof.core n s = .next t ∧ Resting level t ∧ t.dec = s.dec := by
  induction n generalizing s with
  | zero => exact ⟨s, rfl, h, rfl⟩
  | succ n ih =>
    obtain ⟨p, ps, hps⟩ := List.exists_cons_of_length_pos (Nat.zero_lt_of_lt hlen)
    obtain ⟨hrst, hlevel⟩ := hin p (by simp [hps])
    rw [← sampled_of_inputs hps] at hrst hlevel
    rw [run_succ ((step_eq_exec s).trans (h.exec_eq hrst _))]
    exact ih (h.afterCycle hlevel _ s.dec) (by simpa [State.laterInputs] using Nat.le_sub_of_add_le hlen)
      fun q hq => hin q (List.mem_of_mem_tail hq)

/-- The invariant leaves a session with an empty buffer no edge to have observed. -/
theorem resting_of_inv {level : Bool} {s : State} (h : s.Inv) (hs : s.ses.st = .off ∨ s.ses.st = .idle)
    (hcount : s.edgeCount = 0) (hline : s.line = { s1 := level, s2 := level, prev := level }) : Resting level s where
  cfg := h.cfg
  st := hs
  edgeCount := hcount
  lastCount := Nat.le_zero.mp (hcount ▸ h.session.lastCount_le)
  line := hline

/-- Settles O60: by induction on the number of cycles at rest. -/
theorem noDecodeWithoutAnEdge : Obligations.NoDecodeWithoutAnEdge := by
  intro s level n hinv hs hcount hline hlen hin
  obtain ⟨t, ht, hrest, hdec⟩ := (resting_of_inv hinv hs hcount hline).run hlen hin
  exact ⟨t, ht, hrest.st, hrest.edgeCount, hdec⟩

end Sys2Proof.Machine
end

section
/-! The encoder's single cycle (42_encoder.md R172 to R180): what a symbol tick makes of a running phase, and the cycle
in each of its states, whatever the host commands. -/

namespace Sys2Proof.Machine

section
variable {c : Config} {e : EncoderRegs}

/-- R226. -/
theorem encoderTick_idle (hst : e.st = .idle) : encoderTick c e = e := by
  simp only [encoderTick, hst]

/-- R174, R177. -/
theorem encoderTick_countDown (hst : e.st ≠ .idle) (hcnt : 1 < e.cnt) :
    encoderTick c e = { e with cnt := e.cnt - 1 } := by
  cases h : e.st with
  | idle => exact absurd h hst
  | on => simp only [encoderTick, h, tickOn, if_pos hcnt]
  | off => simp only [encoderTick, h, tickOff, if_pos hcnt]

/-- R175. -/
theorem encoderTick_burstEnd (hst : e.st = .on) (hcnt : e.cnt ≤ 1) (hoff : 0 < burstOff c e.shift e.sym) :
    encoderTick c e = { e with st := .off, cnt := burstOff c e.shift e.sym } := by
  simp only [encoderTick, hst, tickOn, if_neg (Nat.not_lt.mpr hcnt), if_pos hoff]

/-- R176. -/
theorem encoderTick_burstEnd_no_off (hst : e.st = .on) (hcnt : e.cnt ≤ 1) (hoff : burstOff c e.shift e.sym = 0) :
    encoderTick c e = encoderAdvance c e := by
  simp only [encoderTick, hst, tickOn, if_neg (Nat.not_lt.mpr hcnt), hoff, lt_irrefl, if_false]

/-- R178. -/
theorem encoderTick_silenceEnd (hst : e.st = .off) (hcnt : e.cnt ≤ 1) : encoderTick c e = encoderAdvance c e := by
  simp only [encoderTick, hst, tickOff, if_neg (Nat.not_lt.mpr hcnt)]

/-- R180. -/
theorem encoderAdvance_epilogue (hsym : e.sym.val = 33) : encoderAdvance c e = { e with st := .idle } := by
  rw [encoderAdvance, dif_neg (by omega)]

/-- P6 leaves an empty OFF phase to the epilogue only (R254). -/
theorem epilogue_of_burstOff_eq_zero {code : Code} {s : Fin 34} (hw : c.wf = true) (hoff : burstOff c code s = 0) :
    s.val = 33 := by
  by_contra hs
  have := (wf_offPhases hw code s).1 (by omega)
  omega

end

/-- R172 waits for `TX_IDLE`. -/
theorem nextTx_of_running {s : State} (p : PortIn) (hst : s.tx.st ≠ .idle) :
    nextTx p s = if p.symTick then encoderTick s.cfg s.tx else s.tx :=
  nextTx_of_not_start p (Bool.eq_false_iff.mpr fun h => hst ((startFires_iff s).mp h).1)

/-- Settles O31: R172 fires, and the encoder starts on the pending code. -/
theorem pendingCodeStartsTheTransmission : Obligations.PendingCodeStartsTheTransmission := by
  intro i s h hst hpending
  obtain ⟨d, -, e⟩ := exec_ready h i
  have hstart := (startFires_iff s).mpr ⟨hst, hpending⟩
  exact ⟨_, e, nextTx_start _ hstart, if_pos hstart⟩

/-- Settles O32: R172 does not fire, and `TX_IDLE` ignores a symbol tick. -/
theorem idleEncoderWaitsForACode : Obligations.IdleEncoderWaitsForACode := by
  intro i s h hst hpending
  obtain ⟨d, -, e⟩ := exec_ready h i
  have hstart : startFires s = false := Bool.eq_false_iff.mpr fun hs => ((startFires_iff s).mp hs).2 hpending
  have hoff : carrierEn s = false := Bool.eq_false_iff.mpr fun hon => by simp [(carrierEn_iff s).mp hon] at hst
  refine ⟨hoff, _, e, ?_⟩
  rw [afterCycle_tx, nextTx_of_not_start _ hstart, encoderTick_idle hst, ite_self]

/-- The encoder's registers after a cycle in which a transmission is under way, whatever the command. -/
theorem exec_tx_of_running {s : State} (h : Ready s) (i : Instr) (hst : s.tx.st ≠ .idle) :
    ∃ t : State, exec i s = .next t ∧ (s.sampled.symTick = false → t.tx = s.tx) ∧
      (s.sampled.symTick = true → t.tx = encoderTick s.cfg s.tx) := by
  obtain ⟨d, -, e⟩ := exec_ready h i
  have htx := nextTx_of_running s.sampled hst
  exact ⟨_, e, fun ht => htx.trans (by simp [ht]), fun ht => htx.trans (if_pos ht)⟩

/-- Settles O33: the tick's three cases; an empty OFF phase is the epilogue's, after which R180 ends the frame. -/
theorem encoderCycleInOnPhase : Obligations.EncoderCycleInOnPhase := by
  intro i s h hst
  have hrun : s.tx.st ≠ .idle := by simp [hst]
  obtain ⟨t, e, hhold, htick⟩ := exec_tx_of_running h i hrun
  refine ⟨t, e, hhold, fun ht => ?_⟩
  rw [htick ht]
  refine ⟨encoderTick_shift _ _, encoderTick_countDown hrun, encoderTick_burstEnd hst, fun hcnt hoff => ?_⟩
  have hsym := epilogue_of_burstOff_eq_zero h.1 hoff
  exact ⟨hsym, (encoderTick_burstEnd_no_off hst hcnt hoff).trans (encoderAdvance_epilogue hsym)⟩

/-- Settles O34: the tick's two cases, and the advance by the symbol. -/
theorem encoderCycleInOffPhase : Obligations.EncoderCycleInOffPhase := by
  intro i s h hst
  have hrun : s.tx.st ≠ .idle := by simp [hst]
  obtain ⟨t, e, hhold, htick⟩ := exec_tx_of_running h i hrun
  refine ⟨t, e, hhold, fun ht => ?_⟩
  rw [htick ht]
  refine ⟨encoderTick_shift _ _, encoderTick_countDown hrun, fun hcnt hsym => ?_, fun hcnt hsym => ?_⟩
  · rw [encoderTick_silenceEnd hst hcnt, ← encoderAdvance_shift s.cfg s.tx]
    rcases encoderAdvance_cases s.cfg s.tx with ⟨_, hon, hnext, hlen⟩ | ⟨hlast, _⟩
    · exact ⟨hon, hnext, by rw [hlen, encoderAdvance_shift]⟩
    · omega
  · exact (encoderTick_silenceEnd hst hcnt).trans (encoderAdvance_epilogue hsym)

end Sys2Proof.Machine
end

section
/-! The length of a frame (42_encoder.md R184), as sums over its symbols and by the one-bits of its code. -/

namespace Sys2Proof.Machine

theorem frameOnTicks_eq_sum (c : Config) (code : Code) : frameOnTicks c code = ∑ s : Fin 34, burstOn c code s := by
  simp only [frameOnTicks, frameBursts, Fin.sum_univ_def, List.map_map, Function.comp_def]

theorem frameTicks_eq_sum (c : Config) (code : Code) :
    frameTicks c code = ∑ s : Fin 34, (burstOn c code s + burstOff c code s) := by
  simp only [frameTicks, frameBursts, Fin.sum_univ_def, List.map_map, Function.comp_def]

/-- A sum over the 34 symbols, the epilogue apart. -/
theorem sum_symbols_epilogue (f : Fin 34 → Nat) : ∑ s, f s = ∑ s : Fin 33, f s.castSucc + f 33 :=
  Fin.sum_univ_castSucc f

/-- A sum over the 34 symbols: the prologue, the bits from bit 31 down, the epilogue (R84). -/
theorem sum_symbols (f : Fin 34 → Nat) : ∑ s, f s = f 0 + ∑ i : Fin 32, f i.succ.castSucc + f 33 := by
  rw [sum_symbols_epilogue, Fin.sum_univ_succ, Fin.castSucc_zero]

theorem length_filter_range (n : Nat) (p : Nat → Bool) :
    ((List.range n).filter p).length = ((Finset.range n).filter fun i => p i).card := by
  simp only [← List.countP_eq_length_filter, ← Nat.count_eq_card_filter_range, Nat.count, Bool.decide_eq_true]

theorem oneBits_le (code : Code) : oneBits code ≤ 32 :=
  (List.length_filter_le _ _).trans_eq List.length_range

/-- The symbols count the bits down, `oneBits` counts them up (R84). -/
theorem sum_fin_reflect (n : Nat) (f : Nat → Nat) : ∑ i : Fin n, f (n - 1 - i) = ∑ i ∈ Finset.range n, f i :=
  (Fin.sum_univ_eq_sum_range (fun i => f (n - 1 - i)) n).trans (Finset.sum_range_reflect f n)

/-- What `n` bits add up to, where a zero adds `a` and a one adds `b`. -/
theorem sum_range_bits (n : Nat) (p : Nat → Bool) (a b : Nat) :
    ∑ i ∈ Finset.range n, (if p i then b else a) =
      (n - ((List.range n).filter p).length) * a + ((List.range n).filter p).length * b := by
  have hzeros : ((Finset.range n).filter fun i => ¬ p i).card = n - ((Finset.range n).filter fun i => p i).card :=
    Nat.eq_sub_of_add_eq' ((Finset.card_filter_add_card_filter_not _).trans (Finset.card_range n))
  rw [Finset.sum_ite, Finset.sum_const, Finset.sum_const, hzeros, length_filter_range, smul_eq_mul, smul_eq_mul,
    Nat.add_comm]

/-- What the 32 bit symbols add up to, where a zero adds `a` and a one adds `b`. -/
theorem sum_bits (code : Code) (a b : Nat) :
    ∑ i : Fin 32, (if code.getLsbD (31 - i) then b else a) = (32 - oneBits code) * a + oneBits code * b :=
  (sum_fin_reflect 32 fun i => if code.getLsbD i then b else a).trans
    (sum_range_bits 32 (fun i => code.getLsbD i) a b)

/-- R84, R170: symbol `i + 1` carries bit `31 - i`. -/
theorem burstOn_symbol (c : Config) (code : Code) (i : Fin 32) :
    burstOn c code i.succ.castSucc = if code.getLsbD (31 - i) then c.n1 else c.n0 := by
  rw [burstOn_bit c code (by simp) (by simp), Fin.val_castSucc, Fin.val_succ,
    show 32 - (i.val + 1) = 31 - i.val by omega]

theorem burstOff_symbol (c : Config) (code : Code) (i : Fin 32) :
    burstOff c code i.succ.castSucc = if code.getLsbD (31 - i) then c.m1 else c.m0 := by
  rw [burstOff_bit c code (by simp) (by simp), Fin.val_castSucc, Fin.val_succ,
    show 32 - (i.val + 1) = 31 - i.val by omega]

theorem frameOnTicks_eq (c : Config) (code : Code) :
    frameOnTicks c code = c.nP + (32 - oneBits code) * c.n0 + oneBits code * c.n1 + c.nE := by
  simp only [frameOnTicks_eq_sum, sum_symbols, burstOn_symbol, sum_bits, burstOn_prologue, burstOn_epilogue]
  omega

theorem frameTicks_eq (c : Config) (code : Code) :
    frameTicks c code = c.nP + c.mP + (32 - oneBits code) * (c.n0 + c.m0) + oneBits code * (c.n1 + c.m1) +
      c.nE + c.mE := by
  simp only [frameTicks_eq_sum, Finset.sum_add_distrib, sum_symbols, burstOn_symbol, burstOff_symbol, sum_bits,
    burstOn_prologue, burstOff_prologue, burstOn_epilogue, burstOff_epilogue]
  ring

/-- Settles O37: the sums by the one-bits, and the reference profile's numbers in them. -/
theorem frameLengthByOneBits : Obligations.FrameLengthByOneBits := by
  refine ⟨fun c code => ⟨frameOnTicks_eq c code, frameTicks_eq c code⟩, fun code => ?_⟩
  have := oneBits_le code
  rw [frameTicks_eq]
  simp only [Config.reference]
  omega

end Sys2Proof.Machine
end

section
/-! A transmission on symbol ticks (42_encoder.md R184): phase by phase and symbol by symbol, with the ticks it takes,
those among them in `TX_ON`, and the changes of the carrier. -/

namespace Sys2Proof.Machine

section
variable (c : Config)

theorem encoderTicks_add (a b : Nat) (e : EncoderRegs) :
    encoderTicks c (a + b) e = encoderTicks c b (encoderTicks c a e) := by
  induction a generalizing e with
  | zero => rw [Nat.zero_add, encoderTicks]
  | succ a ih => rw [Nat.succ_add, encoderTicks, encoderTicks, ih]

theorem onTicks_add (a b : Nat) (e : EncoderRegs) :
    onTicks c (a + b) e = onTicks c a e + onTicks c b (encoderTicks c a e) := by
  induction a generalizing e with
  | zero => simp [onTicks, encoderTicks]
  | succ a ih => rw [Nat.succ_add, onTicks, onTicks, encoderTicks, ih, Nat.add_assoc]

theorem carrierChanges_add (a b : Nat) (e : EncoderRegs) :
    carrierChanges c (a + b) e = carrierChanges c a e + carrierChanges c b (encoderTicks c a e) := by
  induction a generalizing e with
  | zero => simp [carrierChanges, encoderTicks]
  | succ a ih => rw [Nat.succ_add, carrierChanges, carrierChanges, encoderTicks, ih, Nat.add_assoc]

end

/-- `n` symbol ticks lead from `e` to `e'` and each finds the transmission under way, `on` of them in `TX_ON`; the
carrier changes `changes` times. -/
structure TickSpan (c : Config) (n on changes : Nat) (e e' : EncoderRegs) : Prop where
  ticks : encoderTicks c n e = e'
  running : ∀ k, k < n → (encoderTicks c k e).st ≠ .idle
  onTicks : onTicks c n e = on
  carrierChanges : carrierChanges c n e = changes

/-- Whether two states differ in the carrier enable (R181), as a count. -/
def carrierChange (st st' : TxState) : Nat := if st = .on ↔ st' = .on then 0 else 1

section
variable {c : Config}

theorem TickSpan.refl (e : EncoderRegs) : TickSpan c 0 0 0 e e :=
  ⟨rfl, fun k hk => absurd hk k.not_lt_zero, rfl, rfl⟩

theorem TickSpan.trans {n₁ n₂ on₁ on₂ ch₁ ch₂ : Nat} {e₁ e₂ e₃ : EncoderRegs} (h₁ : TickSpan c n₁ on₁ ch₁ e₁ e₂)
    (h₂ : TickSpan c n₂ on₂ ch₂ e₂ e₃) : TickSpan c (n₁ + n₂) (on₁ + on₂) (ch₁ + ch₂) e₁ e₃ where
  ticks := by rw [encoderTicks_add, h₁.ticks, h₂.ticks]
  running k hk := by
    by_cases hk₁ : k < n₁
    · exact h₁.running k hk₁
    · obtain ⟨j, rfl⟩ := Nat.exists_eq_add_of_le (Nat.not_lt.mp hk₁)
      rw [encoderTicks_add, h₁.ticks]
      exact h₂.running j (by omega)
  onTicks := by rw [onTicks_add, h₁.ticks, h₁.onTicks, h₂.onTicks]
  carrierChanges := by rw [carrierChanges_add, h₁.ticks, h₁.carrierChanges, h₂.carrierChanges]

theorem TickSpan.tick {e e' : EncoderRegs} (hst : e.st ≠ .idle) (he : encoderTick c e = e') :
    TickSpan c 1 (if e.st = .on then 1 else 0) (carrierChange e.st e'.st) e e' := by
  subst he
  exact ⟨rfl, fun k hk => by rwa [Nat.lt_one_iff.mp hk], rfl, rfl⟩

/-- The ticks in `TX_ON` of a phase that lasts one tick longer. -/
theorem onTicks_succ (st : TxState) (k : Nat) :
    (if st = .on then k else 0) + (if st = .on then 1 else 0) = if st = .on then k + 1 else 0 := by
  split <;> rfl

/-- R174, R177: a phase counts down to its last tick. -/
theorem tickSpan_countDown {st : TxState} (hst : st ≠ .idle) (shift : Code) (sym : Fin 34) (k : Nat) :
    TickSpan c k (if st = .on then k else 0) 0 ⟨st, shift, sym, k + 1⟩ ⟨st, shift, sym, 1⟩ := by
  induction k with
  | zero => simpa using TickSpan.refl (c := c) ⟨st, shift, sym, 1⟩
  | succ k ih =>
    have first : TickSpan c 1 (if st = .on then 1 else 0) 0 ⟨st, shift, sym, k + 1 + 1⟩ ⟨st, shift, sym, k + 1⟩ := by
      simpa [carrierChange] using TickSpan.tick (e := ⟨st, shift, sym, k + 1 + 1⟩) hst
        (encoderTick_countDown (c := c) hst (Nat.lt_add_left k Nat.one_lt_two))
    simpa only [Nat.add_comm, onTicks_succ] using first.trans ih

/-- A whole phase: as many ticks as it counts, and the transition of its last one. -/
theorem tickSpan_phase {e e' : EncoderRegs} (hst : e.st ≠ .idle) (hcnt : 1 ≤ e.cnt)
    (he : encoderTick c { e with cnt := 1 } = e') :
    TickSpan c e.cnt (if e.st = .on then e.cnt else 0) (carrierChange e.st e'.st) e e' := by
  obtain ⟨st, shift, sym, cnt⟩ := e
  obtain ⟨k, rfl⟩ := Nat.exists_eq_add_of_le' hcnt
  rw [← onTicks_succ]
  simpa using (tickSpan_countDown hst shift sym k).trans (TickSpan.tick hst he)

end

/-- The encoder as symbol `s` of the code starts (R172, R179). -/
def symbolStart (c : Config) (code : Code) (s : Fin 34) : EncoderRegs :=
  { st := .on, shift := code, sym := s, cnt := burstOn c code s }

/-- The encoder as the OFF phase of symbol `s` starts (R175). -/
def silenceStart (c : Config) (code : Code) (s : Fin 34) : EncoderRegs :=
  { st := .off, shift := code, sym := s, cnt := burstOff c code s }

/-- The encoder as a transmission of the code is over (R180). -/
def transmissionEnd (code : Code) : EncoderRegs := { st := .idle, shift := code, sym := 33, cnt := 1 }

theorem encoderStart_eq (c : Config) (code : Code) : encoderStart c code = symbolStart c code 0 := rfl

section
variable {c : Config} (code : Code)

/-- R178: an OFF phase and the transition of its end. -/
theorem tickSpan_silence {s : Fin 34} {e' : EncoderRegs} (hoff : 0 < burstOff c code s)
    (he : encoderAdvance c { silenceStart c code s with cnt := 1 } = e') :
    TickSpan c (burstOff c code s) 0 (carrierChange .off e'.st) (silenceStart c code s) e' :=
  tickSpan_phase (e := silenceStart c code s) (by simp [silenceStart]) hoff
    ((encoderTick_silenceEnd rfl le_rfl).trans he)

end

section
variable {c : Config} (hw : c.wf = true) (code : Code)
include hw

/-- R175: an ON phase and the change to the OFF phase. -/
theorem tickSpan_burst {s : Fin 34} (hoff : 0 < burstOff c code s) :
    TickSpan c (burstOn c code s) (burstOn c code s) 1 (symbolStart c code s) (silenceStart c code s) :=
  tickSpan_phase (e := symbolStart c code s) (by simp [symbolStart]) (wf_onPhases hw code s).1
    (encoderTick_burstEnd rfl le_rfl hoff)

/-- R179: a symbol before the epilogue, on to the next one. -/
theorem tickSpan_symbol {k : Nat} (hk : k < 33) :
    TickSpan c (burstOn c code ⟨k, by omega⟩ + burstOff c code ⟨k, by omega⟩) (burstOn c code ⟨k, by omega⟩) 2
      (symbolStart c code ⟨k, by omega⟩) (symbolStart c code ⟨k + 1, by omega⟩) := by
  have hoff := (wf_offPhases hw code ⟨k, by omega⟩).1 hk
  exact (tickSpan_burst hw code hoff).trans (tickSpan_silence code hoff (dif_pos hk))

/-- R176, R180: the epilogue ends the transmission, with and without an OFF phase; the carrier changes once. -/
theorem tickSpan_epilogue :
    TickSpan c (burstOn c code 33 + burstOff c code 33) (burstOn c code 33) 1
      (symbolStart c code 33) (transmissionEnd code) := by
  rcases Nat.eq_zero_or_pos (burstOff c code 33) with hoff | hoff
  · rw [hoff]
    exact tickSpan_phase (e := symbolStart c code 33) (by simp [symbolStart]) (wf_onPhases hw code 33).1
      ((encoderTick_burstEnd_no_off rfl le_rfl hoff).trans (encoderAdvance_epilogue rfl))
  · exact (tickSpan_burst hw code hoff).trans (tickSpan_silence code hoff (encoderAdvance_epilogue rfl))

/-- The first `k` symbols of a frame. -/
theorem tickSpan_symbols {k : Nat} (hk : k < 34) :
    TickSpan c (∑ s : Fin k, (burstOn c code (s.castLE hk.le) + burstOff c code (s.castLE hk.le)))
      (∑ s : Fin k, burstOn c code (s.castLE hk.le)) (2 * k) (symbolStart c code 0) (symbolStart c code ⟨k, hk⟩) := by
  induction k with
  | zero => exact .refl _
  | succ k ih =>
    rw [Fin.sum_univ_castSucc, Fin.sum_univ_castSucc]
    exact (ih (by omega)).trans (tickSpan_symbol hw code (by omega))

/-- R184: a whole transmission. -/
theorem tickSpan_frame :
    TickSpan c (frameTicks c code) (frameOnTicks c code) 67 (encoderStart c code) (transmissionEnd code) := by
  rw [frameTicks_eq_sum, frameOnTicks_eq_sum, sum_symbols_epilogue, sum_symbols_epilogue, encoderStart_eq]
  exact (tickSpan_symbols hw code (k := 33) (by omega)).trans (tickSpan_epilogue hw code)

end

/-- Settles O38: the frame's span of symbol ticks. -/
theorem transmissionLastsItsFrame : Obligations.TransmissionLastsItsFrame := by
  intro c code hw
  have h := tickSpan_frame hw code
  exact ⟨h.running, congrArg EncoderRegs.st h.ticks, h.onTicks⟩

/-- Settles O40: two changes for each of the 33 symbols before the epilogue, and the epilogue's one. -/
theorem carrierChangesPerFrame : Obligations.CarrierChangesPerFrame := fun _ code hw =>
  (tickSpan_frame hw code).carrierChanges

end Sys2Proof.Machine
end

section
/-! The round trip of a code through the encoder's waveform and the decoder (42_encoder.md R185, R186). -/

namespace Sys2Proof.Machine

/-- A measurement of `len` symbol ticks by the receive timer, rounded down or up (R269). -/
def Measures (c : Config) (len : Nat) (v : Tick) : Prop := c.ticksFloor len ≤ v.toNat ∧ v.toNat ≤ c.ticksCeil len

section
variable {c : Config} {len : Nat} {v : Tick} {w : Window}

theorem Measures.inWin_eq_true (h : Measures c len v) (hin : c.measuresIn len w = true) : inWin v w = true := by
  simp only [Config.measuresIn, Bool.and_eq_true, decide_eq_true_eq] at hin
  exact (inWin_iff v w).mpr ⟨hin.1.trans h.1, h.2.trans hin.2⟩

theorem Measures.inWin_eq_false (h : Measures c len v) (hout : c.measuresOut len w = true) :
    inWin v w = false := by
  simp only [Config.measuresOut, Bool.or_eq_true, decide_eq_true_eq] at hout
  obtain ⟨hfloor, hceil⟩ := h
  rw [Bool.eq_false_iff, ne_eq, inWin_iff]
  omega

end

/-! The phases of a frame in order: the prologue, and ON and OFF of each bit from bit 31 down. -/

section
variable (c : Config) (code : Code)

theorem framePhase_even {i : Nat} (hi : i < 34) : framePhase c code (2 * i) = burstOn c code ⟨i, hi⟩ := by
  simp [framePhase, hi]

theorem framePhase_odd {i : Nat} (hi : i < 34) : framePhase c code (2 * i + 1) = burstOff c code ⟨i, hi⟩ := by
  have hdiv : (2 * i + 1) / 2 = i := by omega
  simp [framePhase, hdiv, hi]

variable {k : Nat} (hk : k < 32)
include hk

theorem framePhase_bitSilence :
    framePhase c code (0 + 2 + 2 * k) = if code.getLsbD (31 - k) then c.n1 else c.n0 := by
  rw [show 0 + 2 + 2 * k = 2 * (k + 1) by omega, framePhase_even c code (by omega)]
  exact burstOn_symbol c code ⟨k, hk⟩

theorem framePhase_bitPulse :
    framePhase c code (0 + 3 + 2 * k) = if code.getLsbD (31 - k) then c.m1 else c.m0 := by
  rw [show 0 + 3 + 2 * k = 2 * (k + 1) + 1 by omega, framePhase_odd c code (by omega)]
  exact burstOff_symbol c code ⟨k, hk⟩

end

/-- R185 (a): the windows in which each phase of a frame is measured, and the one outside which a one's pulse is. -/
structure PhasesMeasured (c : Config) : Prop where
  nP : c.measuresIn c.nP c.wPS = true
  mP : c.measuresIn c.mP c.wPP = true
  n0 : c.measuresIn c.n0 c.wSS = true
  n1 : c.measuresIn c.n1 c.wSS = true
  m0 : c.measuresIn c.m0 c.wS0 = true
  m1 : c.measuresIn c.m1 c.wS1 = true
  m1_out : c.measuresOut c.m1 c.wS0 = true

theorem phasesMeasured_of_roundTripOk {c : Config} (h : c.roundTripOk = true) : PhasesMeasured c := by
  simp only [Config.roundTripOk, Config.measuresOk, Bool.and_eq_true] at h
  obtain ⟨⟨⟨⟨⟨⟨⟨⟨_, nP⟩, mP⟩, n0⟩, n1⟩, m0⟩, m1⟩, m1_out⟩, _⟩ := h
  exact ⟨nP, mP, n0, n1, m0, m1, m1_out⟩

/-- A buffer of measurements of a frame's phases holds the frame (R119). -/
theorem frameAt_of_measures {c : Config} {m : Memory} {n : Nat} {code : Code} (hc : PhasesMeasured c) (hn : 67 ≤ n)
    (hm : ∀ i, i < 66 → Measures c (framePhase c code i) (intervalAt m i)) : FrameAt c m n 0 32 code where
  edges := hn
  prologueSilence := (hm 0 (by omega)).inWin_eq_true hc.nP
  prologuePulse := (hm 1 (by omega)).inWin_eq_true hc.mP
  silence k hk := by
    have h := hm (0 + 2 + 2 * k) (by omega)
    rw [framePhase_bitSilence c code hk] at h
    split at h
    · exact h.inWin_eq_true hc.n1
    · exact h.inWin_eq_true hc.n0
  zero k hk hb := by
    have h := hm (0 + 3 + 2 * k) (by omega)
    rw [framePhase_bitPulse c code hk, hb] at h
    exact h.inWin_eq_true hc.m0
  one k hk hb := by
    have h := hm (0 + 3 + 2 * k) (by omega)
    rw [framePhase_bitPulse c code hk, hb] at h
    exact ⟨h.inWin_eq_true hc.m1, h.inWin_eq_false hc.m1_out⟩

/-- Settles O54: the measurements are a full frame, which decodes to its code (R119). -/
theorem encodedFrameRoundTrips : Obligations.EncodedFrameRoundTrips := by
  intro c m n code hw hc hn hcap hm
  have hframe := frameAt_of_measures (phasesMeasured_of_roundTripOk hc) hn hm
  obtain ⟨hdecode, -, hresult⟩ := fullFrameDecodesToItsCode c m n code hw hcap hframe
  exact ⟨_, _, hdecode, rfl, rfl, hresult⟩

/-- Settles O12: one fixed configuration, whose lengths, windows and timeout are evaluated. -/
theorem referenceProfileRoundTrips : Obligations.ReferenceProfileRoundTrips := ⟨by decide, by decide⟩

end Sys2Proof.Machine
end

section
/-! The command a step runs (43_host_commands.md R200, R201): the one on the port, or `NOP`. -/

namespace Sys2Proof.Machine

/-- R80. -/
theorem command?_of_valid {p : PortIn} (h : p.cmdValid = true) : command? p = some (decode (commandWord p)) := if_pos h

/-- R80: without `cmd_valid_i` the other command inputs are ignored. -/
theorem command?_of_not_valid {p : PortIn} (h : p.cmdValid = false) : command? p = none := by
  simp [command?, h]

/-- Settles O7: both values of `cmd_valid_i`. -/
theorem stepRunsTheDecodedCommand : Obligations.StepRunsTheDecodedCommand := by
  refine fun s => ⟨fun h => ?_, fun h => ?_⟩
  · rw [step_eq_exec, command?_of_valid h]
    rfl
  · rw [step_eq_exec, command?_of_not_valid h]
    rfl

/-- A word that fits in `nbits` bits is placed on the port whole (log entry 4). -/
theorem commandWord_withFetchWord (s : State) {nbits w : Nat} (h : w < 2 ^ nbits) :
    commandWord (s.withFetchWord nbits w).sampled = BitVec.ofNat 35 w := by
  show CmdWord.make (CmdWord.op (BitVec.ofNat 35 (w % 2 ^ nbits))) (CmdWord.data (BitVec.ofNat 35 (w % 2 ^ nbits))) = _
  rw [make_op_data, Nat.mod_eq_of_lt h]

/-- Settles O8: the word's opcode and operand on the port are the word again. -/
theorem placedWordIsRun : Obligations.PlacedWordIsRun := by
  intro s nbits w hw hn
  have hfits : w < 2 ^ nbits := hw.trans_le (Nat.pow_le_pow_right (by decide) hn)
  refine ⟨rfl, ?_⟩
  rw [step_eq_exec, command?_of_valid rfl, commandWord_withFetchWord s hfits]
  rfl

end Sys2Proof.Machine
end

section
/-! The host commands of 43_host_commands.md against a cycle without a command (R202, R203, R205, R206): the registers
that read a command's strobe, when they come out as in the `NOP` cycle, and so which commands are dropped (R268). -/

namespace Sys2Proof.Machine

/-! What becomes of the pending code (R205, R172). -/

/-- R205: the empty sentinel takes the code that the command gives, if it gives one. -/
theorem nextPending_of_empty (k : CmdStrobes) {s : State} (h : s.txPending = 0) :
    nextPending k s = k.txSetCode.getD 0 := by
  cases hk : k.txSetCode <;> simp [nextPending, startFires, setCodeTaken, h, hk]

/-- R172, R205: a pending code is consumed in `TX_IDLE` and held otherwise, whatever the command. -/
theorem nextPending_of_pending (k : CmdStrobes) {s : State} (h : s.txPending ≠ 0) :
    nextPending k s = if s.tx.st = .idle then 0 else s.txPending := by
  have htaken : setCodeTaken k s = none := if_neg h
  simp only [nextPending, htaken, startFires_iff, h, ne_eq, not_false_eq_true, and_true]

/-- Settles O35: the sentinel empty or not. -/
theorem pendingCodeIsTakenHeldOrConsumed : Obligations.PendingCodeIsTakenHeldOrConsumed := by
  intro i s h
  obtain ⟨d, -, e⟩ := exec_ready h i
  refine ⟨_, e, fun hempty => ⟨?_, fun hi => ?_⟩, nextPending_of_pending _⟩
  · rintro code rfl
    exact nextPending_of_empty _ hempty
  · rw [afterCycle_txPending, nextPending_of_empty _ hempty, strobesOf_txSetCode hi]
    rfl

/-! Commands that are dropped. -/

/-- A ready state's cycle, from the decoder's next registers. -/
theorem exec_of_nextDec {i : Instr} {s : State} {d : DecoderRegs} (h : Ready s)
    (hd : nextDec (strobesOf i) s = .ok d) : exec i s = .next (s.afterCycle (strobesOf i) d) :=
  (exec_eq_clockCycle i s).trans (clockCycle_ok h.1 h.2.1 hd)

/-- Two commands with the same next values for every register are the same cycle. -/
theorem exec_congr {i j : Instr} {s : State} (hdec : nextDec (strobesOf i) s = nextDec (strobesOf j) s)
    (hregs : ∀ d, s.afterCycle (strobesOf i) d = s.afterCycle (strobesOf j) d) : exec i s = exec j s := by
  simp only [exec_eq_clockCycle, clockCycle, hdec, hregs]

/-- R206: the opcodes from 5 on are the reserved ones, whose cycle is that of `NOP`. -/
theorem exec_decodeFields_reserved {op : BitVec 3} (h : 5#3 ≤ op) (data : BitVec 32) (s : State) :
    exec (decodeFields op data) s = exec .nop s := by
  have hop : op = 5 ∨ op = 6 ∨ op = 7 := by
    revert op
    decide
  rcases hop with rfl | rfl | rfl <;> rfl

/-- The decoder does not read the strobes of `TX_SET_CODE` and `RX_ENABLE`. -/
theorem nextDec_txSetCode (code : Code) (s : State) :
    nextDec (strobesOf (.txSetCode code)) s = nextDec (strobesOf .nop) s := rfl

theorem nextDec_rxEnable (s : State) : nextDec (strobesOf .rxEnable) s = nextDec (strobesOf .nop) s := rfl

/-- Only the pending code reads the strobe of `TX_SET_CODE`. -/
theorem afterCycle_txSetCode (code : Code) (s : State) (d : DecoderRegs) :
    s.afterCycle (strobesOf (.txSetCode code)) d =
      { s.afterCycle (strobesOf .nop) d with txPending := nextPending (strobesOf (.txSetCode code)) s } := rfl

/-- R205, R268. -/
theorem exec_txSetCode_of_pending (code : Code) {s : State} (h : s.txPending ≠ 0) :
    exec (.txSetCode code) s = exec .nop s := by
  refine exec_congr (nextDec_txSetCode code s) fun d => ?_
  rw [afterCycle_txSetCode, nextPending_of_pending _ h, ← nextPending_of_pending (strobesOf .nop) h]
  rfl

/-- The session, the receive timer and the edge count are what reads the strobe of `RX_ENABLE`. -/
theorem afterCycle_rxEnable (s : State) (d : DecoderRegs) :
    s.afterCycle (strobesOf .rxEnable) d =
      { s.afterCycle (strobesOf .nop) d with
        ses := nextSes (strobesOf .rxEnable) s
        rxTime := nextRxTime (strobesOf .rxEnable) s.sampled s
        edgeCount := nextEdgeCount (strobesOf .rxEnable) s } := rfl

/-- R137 is the only transition of the session that an enable makes. -/
theorem nextSes_rxEnable_of_not_off {s : State} (h : s.ses.st ≠ .off) :
    nextSes (strobesOf .rxEnable) s = nextSes (strobesOf .nop) s := by
  cases hs : s.ses.st with
  | off => exact absurd hs h
  | idle => simp [nextSes_of_idle _ hs]
  | wait => simp [nextSes_of_wait _ hs]
  | decode => simp [nextSes_of_decode _ hs]

/-- R202, R268. -/
theorem exec_rxEnable_of_not_off {s : State} (h : s.ses.st ≠ .off) : exec .rxEnable s = exec .nop s := by
  have hen (i : Instr) : enableFires (strobesOf i) s = false := by simp [enableFires, h]
  have htime : nextRxTime (strobesOf .rxEnable) s.sampled s = nextRxTime (strobesOf .nop) s.sampled s := by
    simp only [nextRxTime, hen]
  have hcount : nextEdgeCount (strobesOf .rxEnable) s = nextEdgeCount (strobesOf .nop) s := by
    simp only [nextEdgeCount, hen]
    rfl
  refine exec_congr (nextDec_rxEnable s) fun d => ?_
  rw [afterCycle_rxEnable, nextSes_rxEnable_of_not_off h, htime, hcount]
  rfl

/-- The session, the result and the edge count are what reads the strobe of `RX_DISABLE`, beside the decoder, which its
cycle leaves at `d'`. -/
theorem afterCycle_rxDisable (s : State) (d d' : DecoderRegs) :
    s.afterCycle (strobesOf .rxDisable) d' =
      { s.afterCycle (strobesOf .nop) d with
        ses := nextSes (strobesOf .rxDisable) s
        dec := d'
        res := nextRes (strobesOf .rxDisable) s
        edgeCount := nextEdgeCount (strobesOf .rxDisable) s } := rfl

/-- Outside `DECODE` the edge count does not read the strobe of `RX_DISABLE`. -/
theorem nextEdgeCount_rxDisable_of_not_decode {s : State} (h : s.ses.st ≠ .decode) :
    nextEdgeCount (strobesOf .rxDisable) s = nextEdgeCount (strobesOf .nop) s := by
  simp only [nextEdgeCount, decodeDone_eq_false (.inl h)]
  rfl

/-- R145 before R147: a disable in `DECODE` keeps the edge count. -/
theorem nextEdgeCount_rxDisable (s : State) :
    nextEdgeCount (strobesOf .rxDisable) s =
      if s.ses.st = .decode then s.edgeCount else nextEdgeCount (strobesOf .nop) s := by
  split
  · next hs =>
    have hen : enableFires (strobesOf .rxDisable) s = false := by simp [enableFires, hs]
    have hdone : decodeDone (strobesOf .rxDisable) s = false := decodeDone_eq_false (.inr rfl)
    simp [nextEdgeCount, hen, hdone, captureFires_of_disabled (.inr hs)]
  · next hs => exact nextEdgeCount_rxDisable_of_not_decode hs

/-- R203, R268. -/
theorem exec_rxDisable_of_off {s : State} (h : s.ses.st = .off) : exec .rxDisable s = exec .nop s := by
  have hdecode : s.ses.st ≠ .decode := by simp [h]
  have hdec : nextDec (strobesOf .rxDisable) s = nextDec (strobesOf .nop) s := by
    simp [nextDec, timeoutFires, decodeRuns, h]
  have hres : nextRes (strobesOf .rxDisable) s = nextRes (strobesOf .nop) s := by
    rw [nextRes_of_not_done (by simp), nextRes_of_not_done fun hd => hdecode hd.1]
    rfl
  have hses : nextSes (strobesOf .rxDisable) s = nextSes (strobesOf .nop) s := by
    simp [nextSes_of_off _ h]
  refine exec_congr hdec fun d => ?_
  rw [afterCycle_rxDisable s d d, hses, hres, nextEdgeCount_rxDisable_of_not_decode hdecode]
  rfl

/-! The statements. -/

/-- Settles O28: a code that finds the sentinel empty is all that the command changes. -/
theorem setCodeChangesOnlyThePendingCode : Obligations.SetCodeChangesOnlyThePendingCode := by
  intro code s h
  obtain ⟨d, hd, e⟩ := exec_ready h .nop
  refine ⟨_, e, ?_, fun hvalid hop hdata => ?_⟩
  · split
    · next hempty =>
      rw [exec_of_nextDec h ((nextDec_txSetCode code s).trans hd), afterCycle_txSetCode, nextPending_of_empty _ hempty]
      rfl
    · next hpending => exact (exec_txSetCode_of_pending code hpending).trans e
  · rw [step_of_cmdValid hvalid, hop, hdata]
    rfl

/-- Settles O29: R137 in `OFF`, and a dropped command elsewhere. -/
theorem enableChangesOnlyTheSession : Obligations.EnableChangesOnlyTheSession := by
  intro s h
  obtain ⟨d, hd, e⟩ := exec_ready h .nop
  refine ⟨_, e, ?_, fun hvalid hop => ?_⟩
  · split
    · next hs =>
      have hen : enableFires (strobesOf .rxEnable) s = true := (enableFires_iff _ s).mpr ⟨hs, rfl⟩
      rw [exec_of_nextDec h ((nextDec_rxEnable s).trans hd), afterCycle_rxEnable, nextSes_of_off _ hs]
      simp [nextRxTime, nextEdgeCount, hen]
    · next hs => exact (exec_rxEnable_of_not_off hs).trans e
  · rw [step_of_cmdValid hvalid, hop]
    rfl

/-- Settles O30: R138, R141 and R145 outside `OFF`, where the disable holds the decoder, the result and a decode's edge
count; a dropped command in `OFF`. -/
theorem disableChangesOnlyTheSession : Obligations.DisableChangesOnlyTheSession := by
  intro s h
  obtain ⟨d, -, e⟩ := exec_ready h .nop
  refine ⟨_, e, ?_, fun hvalid hop => ?_⟩
  · split
    · next hs => exact (exec_rxDisable_of_off hs).trans e
    · next hs =>
      rw [exec_decoder_held (i := .rxDisable) h.1 h.2.1 (by simp) (by simp), afterCycle_rxDisable s d,
        nextSes_rxDisable hs, nextRes_of_not_done (by simp), nextEdgeCount_rxDisable]
      rfl
  · rw [step_of_cmdValid hvalid, hop]
    rfl

/-- Settles O21: each dropped command's cycle is that of `NOP`, and `tx_pending_o = 0` is the empty sentinel. -/
theorem droppedCommandsAreNops : Obligations.DroppedCommandsAreNops := by
  intro s h
  obtain ⟨d, -, e⟩ := exec_ready h .nop
  refine ⟨_, e, e, e, e, fun hvalid hop => ?_, fun hs => (exec_rxEnable_of_not_off hs).trans e,
    fun hs => (exec_rxDisable_of_off hs).trans e, fun code => ⟨fun hpending => ?_, fun hempty => ?_⟩⟩
  · exact (step_of_cmdValid hvalid).trans ((exec_decodeFields_reserved hop _ s).trans e)
  · exact (exec_txSetCode_of_pending code ((txPendingOut_iff s).mp hpending)).trans e
  · have hzero : s.txPending = 0 := bne_eq_false_iff_eq.mp hempty
    obtain ⟨d', -, e'⟩ := exec_ready h (.txSetCode code)
    exact ⟨_, e', nextPending_of_empty _ hzero⟩

end Sys2Proof.Machine
end

section
/-! The block never stops (60_exceptions.md R220): the invariant's bound on the cursor makes every interval read of the
decoder find its entries (20_memory.md R64), and no other part of a cycle can fail. -/

namespace Sys2Proof.Machine

/-- R64: a cursor that is not halted has both entries of its interval below `d_n`, hence within the capacity. -/
theorem State.Inv.ready {s : State} (h : s.Inv) (hr : s.sampled.rst = false) : Ready s :=
  ⟨h.cfg, hr, fun _ hh => h.decoder.reads h.cfg hh⟩

/-- R220 for the cycle of any command: a reset cycle reads no entry, and every other cycle is ready. -/
theorem exists_next_exec {s : State} (h : s.Inv) (i : Instr) : ∃ t : State, exec i s = .next t := by
  cases hr : s.sampled.rst with
  | true => exact ⟨s.afterReset, (exec_eq_clockCycle i s).trans (clockCycle_reset h.cfg hr)⟩
  | false =>
    obtain ⟨d, -, e⟩ := exec_ready (h.ready hr) i
    exact ⟨s.afterCycle (strobesOf i) d, e⟩

/-- Settles O57: a step is the cycle of the command on the port, or of `NOP`. -/
theorem blockNeverStops : Obligations.BlockNeverStops := by
  intro s h
  rw [step_eq_exec]
  exact exists_next_exec h _

end Sys2Proof.Machine
end

section
/-! A transmission on the bench (70_reset_and_hazards.md R272, R255): the bench strobes the symbol tick once every
`CLK_PER_SYM_TICK` cycles of a run of `sym_timer_run_o = 1`, so its cycles follow the encoder driven by symbol ticks
alone. -/

namespace Sys2Proof.Machine

/-! One cycle of the bench. -/

@[simp] theorem driven_sampled (b : Bench) (t : BenchState) : (b.driven t).sampled = b.port t := rfl

/-- The invariant does not speak of the inputs that the bench lists. -/
theorem inv_driven {b : Bench} {t : BenchState} (h : t.block.Inv) : (b.driven t).Inv where
  cfg := h.cfg
  buffer := h.buffer
  session := { lastCount_le := h.session.lastCount_le, idle := h.session.idle, wait := h.session.wait
               decode := h.session.decode, decodeWritten := h.session.decodeWritten }
  decoder := h.decoder
  result := h.result
  encoder := h.encoder

/-- A bench that never resets goes on from a block with the invariant, and keeps it. -/
theorem benchStep_of_inv {b : Bench} {t : BenchState} (hb : b.resets = []) (h : t.block.Inv) :
    ∃ s : State, b.step t = .next (t.advance s) ∧ s.Inv ∧ s.cfg = t.block.cfg ∧
      s.tx = nextTx (b.port t) t.block := by
  have hinv : (b.driven t).Inv := inv_driven h
  have hrst : (b.driven t).sampled.rst = false := by simp [Bench.port, hb]
  obtain ⟨d, -, e⟩ := exec_ready (hinv.ready hrst) ((command? (b.driven t).sampled).getD .nop)
  refine ⟨_, ?_, inv_of_exec hinv e, rfl, rfl⟩
  rw [Bench.step, step_eq_exec, e]

theorem benchRun_succ {b : Bench} {t t' : BenchState} (h : b.step t = .next t') (n : Nat) :
    b.run (n + 1) t = b.run n t' := by
  simp only [Bench.run, h]

/-! The cycles of a transmission. -/

theorem encoderTicks_succ (c : Config) (n : Nat) (e : EncoderRegs) :
    encoderTicks c (n + 1) e = encoderTick c (encoderTicks c n e) :=
  encoderTicks_add c n 1 e

/-- The bench `k` cycles into a transmission that began with the encoder at `e`: the encoder has seen one symbol tick
for each period of the strobe. -/
structure Transmitting (b : Bench) (c : Config) (e : EncoderRegs) (k : Nat) (t : BenchState) : Prop where
  inv : t.block.Inv
  cfg : t.block.cfg = c
  age : t.symAge = k
  tx : t.block.tx = encoderTicks c (k / b.ticks.clkPerSymTick) e

section
variable {b : Bench} {c : Config} {e : EncoderRegs} {k : Nat} {t : BenchState}

/-- R172: the cycle that consumes the pending code is the last one before the run of `sym_timer_run_o = 1`. -/
theorem benchStep_start (hb : b.resets = []) (h : t.block.Inv) (hst : t.block.tx.st = .idle)
    (hpending : t.block.txPending ≠ 0) :
    ∃ u : BenchState, b.step t = .next u ∧
      Transmitting b t.block.cfg (encoderStart t.block.cfg t.block.txPending) 0 u := by
  obtain ⟨s, hs, hinv, hcfg, htx⟩ := benchStep_of_inv hb h
  refine ⟨_, hs, hinv, hcfg, by simp [BenchState.advance, symTimerRun, hst], ?_⟩
  rw [Nat.zero_div, encoderTicks]
  exact htx.trans (nextTx_start _ ((startFires_iff t.block).mpr ⟨hst, hpending⟩))

/-- R255: the strobe of a cycle under way comes at the end of each period, and moves the encoder on by one tick. -/
theorem Transmitting.step (hb : b.resets = []) (h : Transmitting b c e k t)
    (hrun : (encoderTicks c (k / b.ticks.clkPerSymTick) e).st ≠ .idle) :
    ∃ u : BenchState, b.step t = .next u ∧ Transmitting b c e (k + 1) u := by
  obtain ⟨s, hs, hinv, hcfg, htx⟩ := benchStep_of_inv hb h.inv
  rw [← h.tx] at hrun
  have htimer : symTimerRun t.block = true := (symTimerRun_iff t.block).mpr hrun
  have hstrobe : (b.port t).symTick = true ↔ b.ticks.clkPerSymTick ∣ k + 1 := by
    simp [Bench.port, TickSource.symTick, htimer, h.age, Nat.dvd_iff_mod_eq_zero]
  refine ⟨_, hs, hinv, hcfg.trans h.cfg, by simp [BenchState.advance, htimer, h.age], ?_⟩
  show s.tx = _
  rw [htx, nextTx_of_running _ hrun, Nat.succ_div]
  simp only [hstrobe]
  split
  · rw [encoderTicks_succ, h.tx, h.cfg]
  · exact h.tx

/-- Any number of cycles, while the ticks seen find the transmission under way. -/
theorem Transmitting.run {n : Nat} (hb : b.resets = []) (h : Transmitting b c e k t)
    (hrun : ∀ j, j < k + n → (encoderTicks c (j / b.ticks.clkPerSymTick) e).st ≠ .idle) :
    ∃ u : BenchState, b.run n t = .next u ∧ Transmitting b c e (k + n) u := by
  induction n generalizing k t with
  | zero => exact ⟨t, rfl, h⟩
  | succ n ih =>
    obtain ⟨u, hu, hnext⟩ := h.step hb (hrun k (by omega))
    rw [benchRun_succ hu, Nat.add_comm n, ← Nat.add_assoc]
    exact ih hnext fun j hj => hrun j (by omega)

/-- R182: `sym_timer_run_o` while the encoder has seen the ticks of `k` cycles. -/
theorem Transmitting.underWay_iff (h : Transmitting b c e k t) :
    symTimerRun t.block = true ↔ (encoderTicks c (k / b.ticks.clkPerSymTick) e).st ≠ .idle := by
  rw [symTimerRun_iff, h.tx]

end

/-- Settles O39: the frame's symbol ticks (R184), each `CLK_PER_SYM_TICK` cycles long, after the cycle of R172. -/
theorem transmissionLastsItsFrameInCycles : Obligations.TransmissionLastsItsFrameInCycles := by
  intro b t hticks hb hinv hst hpending
  have hperiod : 0 < b.ticks.clkPerSymTick := by
    simp only [TickSource.wf, Bool.and_eq_true, decide_eq_true_eq] at hticks
    exact hticks.2
  have hframe := tickSpan_frame hinv.cfg t.block.txPending
  obtain ⟨t₀, hstart, h₀⟩ := benchStep_start hb hinv hst hpending
  have hunder (k : Nat) (hk : k < frameTicks t.block.cfg t.block.txPending * b.ticks.clkPerSymTick) :=
    hframe.running (k / b.ticks.clkPerSymTick) ((Nat.div_lt_iff_lt_mul hperiod).mpr hk)
  have hrun (k : Nat) (hk : k ≤ frameTicks t.block.cfg t.block.txPending * b.ticks.clkPerSymTick) :=
    h₀.run (n := k) hb fun j hj => hunder j (by omega)
  simp only [benchRun_succ hstart]
  constructor
  · intro k hk
    obtain ⟨u, hu, h⟩ := hrun k hk.le
    exact ⟨u, hu, h.underWay_iff.mpr (by simpa using hunder k hk)⟩
  · obtain ⟨u, hu, h⟩ := hrun _ le_rfl
    refine ⟨u, hu, Bool.eq_false_iff.mpr fun hon => h.underWay_iff.mp hon ?_⟩
    rw [Nat.zero_add, Nat.mul_div_cancel _ hperiod, hframe.ticks]
    rfl

end Sys2Proof.Machine
end

section
/-! Reset and the configuration (70_reset_and_hazards.md R250, R251, R253, R254). -/

namespace Sys2Proof.Machine

/-! A cycle with `rst = 1`. -/

/-- R250: reset overrides every command. -/
theorem exec_reset {s : State} (hw : s.cfg.wf = true) (hr : s.sampled.rst = true) (i : Instr) :
    exec i s = .next s.afterReset :=
  (exec_eq_clockCycle i s).trans (clockCycle_reset hw hr)

theorem step_reset {s : State} (hw : s.cfg.wf = true) (hr : s.sampled.rst = true) : step s = .next s.afterReset :=
  (step_eq_exec s).trans (exec_reset hw hr _)

/-- Settles O9: every command's next state is the reset values beside the old buffer and configuration. -/
theorem resetCycleResetsAllButTheBuffer : Obligations.ResetCycleResetsAllButTheBuffer := by
  intro s hw hr
  exact ⟨s.afterReset, step_reset hw hr, exec_reset hw hr, rfl, rfl, rfl, rfl, rfl, rfl, rfl, rfl, rfl, rfl⟩

/-- The outputs read none of the fields that a reset cycle keeps (R21). -/
theorem outputs_afterReset (s : State) : s.afterReset.outputs = State.reset.outputs := rfl

/-- Settles O10: the outputs are functions of the registers, at their reset values. -/
theorem outputsAfterReset : Obligations.OutputsAfterReset := by
  refine ⟨by decide, fun s hw hr => ⟨s.afterReset, step_reset hw hr, ?_⟩⟩
  rw [outputs_afterReset]
  decide

/-! An invalid configuration. -/

/-- No other rule of a cycle refuses it. -/
theorem clockCycle_refused_iff (k : CmdStrobes) (s : State) :
    clockCycle k s = .refused .badConfig ↔ ¬ s.cfg.wf = true := by
  rcases clockCycle_cases k s with ⟨hw, e⟩ | ⟨hw, _, e⟩ | ⟨hw, _, _, _, e⟩ | ⟨hw, _, _, _, e⟩ <;> simp [hw, e]

theorem step_refused_iff (s : State) : step s = .refused .badConfig ↔ ¬ s.cfg.wf = true := by
  rw [step_eq_exec, exec_eq_clockCycle, clockCycle_refused_iff]

theorem window_wf_iff (w : Window) : w.wf = true ↔ w.min ≤ w.max ∧ w.max ≤ 2 ^ 32 - 1 := by
  simp only [Window.wf, Bool.and_eq_true, decide_eq_true_eq]

theorem phaseOk_iff (c : Config) (len : Nat) : c.phaseOk len = true ↔ 1 ≤ len ∧ len ≤ 2 ^ c.txcntW - 1 := by
  simp only [Config.phaseOk, Bool.and_eq_true, decide_eq_true_eq]

/-- P1 to P7 of R254. -/
theorem config_wf_iff (c : Config) :
    c.wf = true ↔
      (c.codeW = 32 ∧ c.nbits = 32 ∧ c.tickW = 32) ∧
      (1 ≤ c.edgeCap ∧ c.edgeCap < 2 ^ c.cntW) ∧
      (∀ w ∈ [c.wPS, c.wPP, c.wRP, c.wSS, c.wS0, c.wS1], w.wf = true) ∧
      (1 ≤ c.rxTimeoutTicks ∧ c.rxTimeoutTicks ≤ 2 ^ 32 - 1) ∧
      (∀ l ∈ [c.nP, c.n0, c.n1, c.nE], c.phaseOk l = true) ∧
      (∀ l ∈ [c.mP, c.m0, c.m1], c.phaseOk l = true) ∧
      c.mE ≤ 2 ^ c.txcntW - 1 := by
  simp only [Config.wf, Config.widthsOk, Config.edgeCapOk, Config.windowsOk, Config.timeoutOk, Config.onPhasesOk,
    Config.offPhasesOk, Config.epilogueOffOk, Bool.and_eq_true, decide_eq_true_eq, List.forall_mem_cons,
    List.not_mem_nil, false_imp_iff, implies_true, and_true, and_assoc]

/-- Settles O11: the configuration is what a cycle is refused for, and its checks are P1 to P7. -/
theorem invalidConfigurationIsRefused : Obligations.InvalidConfigurationIsRefused := by
  refine ⟨reference_wf, fun s => ?_⟩
  rw [step_refused_iff, config_wf_iff]
  simp only [window_wf_iff, phaseOk_iff]

end Sys2Proof.Machine
end

section
/-! The receive and the transmit side run beside each other (70_reset_and_hazards.md R267): neither reads the other's
registers. -/

namespace Sys2Proof.Machine

/-- The cycle of the receive side, and whether there is one, is the same beside every encoder and pending code. -/
theorem clockCycle_with_tx {k : CmdStrobes} {s t : State} (e : EncoderRegs) (q : Code) (h : clockCycle k s = .next t) :
    ∃ u : State, clockCycle k { s with tx := e, txPending := q } = .next u ∧
      u = { t with tx := u.tx, txPending := u.txPending } := by
  obtain ⟨hw, ⟨hr, rfl⟩ | ⟨hr, d, hd, rfl⟩⟩ := clockCycle_next h
  · exact ⟨_, clockCycle_reset hw hr, rfl⟩
  · exact ⟨_, clockCycle_ok hw hr hd, rfl⟩

/-- Settles O58: for the strobes of every command. -/
theorem receiverIgnoresTheTransmitter : Obligations.ReceiverIgnoresTheTransmitter := by
  intro i s t e q h
  rw [exec_eq_clockCycle] at h ⊢
  exact clockCycle_with_tx e q h

/-- Two states with the same configuration, inputs, encoder and pending code. -/
structure SameTransmitSide (s s' : State) : Prop where
  cfg : s'.cfg = s.cfg
  inputs : s'.inputs = s.inputs
  freeIdx : s'.freeIdx = s.freeIdx
  tx : s'.tx = s.tx
  txPending : s'.txPending = s.txPending

section
variable {s s' : State} (h : SameTransmitSide s s')
include h

theorem SameTransmitSide.sampled : s'.sampled = s.sampled := by
  simp only [State.sampled, h.inputs, h.freeIdx]

theorem SameTransmitSide.startFires : startFires s' = startFires s := by
  simp only [Sys2Proof.Machine.startFires, h.tx, h.txPending]

theorem SameTransmitSide.nextTx (p : PortIn) : nextTx p s' = nextTx p s := by
  simp only [Sys2Proof.Machine.nextTx, h.startFires, h.cfg, h.tx, h.txPending]

theorem SameTransmitSide.nextPending (k : CmdStrobes) : nextPending k s' = nextPending k s := by
  simp only [Sys2Proof.Machine.nextPending, h.startFires, setCodeTaken, h.txPending]

/-- Both cycles reset the encoder and the pending code or both move them on, in the same way. -/
theorem SameTransmitSide.clockCycle {k : CmdStrobes} {t t' : State} (ht : clockCycle k s = .next t)
    (ht' : clockCycle k s' = .next t') : t'.tx = t.tx ∧ t'.txPending = t.txPending := by
  obtain ⟨-, hcase⟩ := clockCycle_next ht
  obtain ⟨-, hcase'⟩ := clockCycle_next ht'
  rw [h.sampled] at hcase'
  rcases hcase with ⟨hr, rfl⟩ | ⟨hr, d, -, rfl⟩ <;> rcases hcase' with ⟨hr', rfl⟩ | ⟨hr', d', -, rfl⟩
  · exact ⟨rfl, rfl⟩
  · simp [hr] at hr'
  · simp [hr] at hr'
  · exact ⟨by rw [afterCycle_tx, afterCycle_tx, h.sampled, h.nextTx], h.nextPending k⟩

end

/-- Settles O59: for the strobes of every command. -/
theorem transmitterIgnoresTheReceiver : Obligations.TransmitterIgnoresTheReceiver := by
  intro i s s' t t' hcfg hinputs hfree htx hpending ht ht'
  rw [exec_eq_clockCycle] at ht ht'
  exact SameTransmitSide.clockCycle ⟨hcfg, hinputs, hfree, htx, hpending⟩ ht ht'

end Sys2Proof.Machine
end

section
/-! The latency of an edge (70_reset_and_hazards.md R270): two cycles of the synchroniser (41_session.md R130), one of
capture (R131, R133), and one until the session sees the new count (R139). -/

namespace Sys2Proof.Machine

/-- A cycle in `IDLE` that samples the ports `p`, without reset and `RX_DISABLE`, from `s` to `t`. -/
structure IdleCycle (p : PortIn) (s t : State) : Prop where
  cfg : t.cfg = s.cfg
  line : t.line = { s1 := p.irRx, s2 := s.line.s1, prev := s.line.s2 }
  rxTime : t.rxTime = s.rxTime + if p.rxTick then 1 else 0
  edgeCount : t.edgeCount = capturedCount s
  eb : t.eb = nextEb s
  ses : t.ses = if s.edgeCount ≠ s.ses.lastCount then sessionActivity s else s.ses
  inputs : t.inputs = s.inputs.tail

theorem step_of_idle {s : State} {p : PortIn} {ps : List PortIn} (hw : s.cfg.wf = true) (hs : s.ses.st = .idle)
    (hps : s.inputs = p :: ps) (hp : p.rst = false ∧ command? p ≠ some .rxDisable) :
    ∃ t : State, step s = .next t ∧ IdleCycle p s t := by
  obtain rfl : s.sampled = p := sampled_of_inputs hps
  obtain ⟨hr, hcmd⟩ := hp
  have hi : (command? s.sampled).getD .nop ≠ .rxDisable := by
    cases hc : command? s.sampled with
    | none => simp
    | some i => simpa [hc] using hcmd
  have e := exec_decoder_held (i := (command? s.sampled).getD .nop) hw hr (by simp [hs]) (by simp [hs])
  refine ⟨_, (step_eq_exec s).trans e, rfl, rfl, ?_, ?_, rfl, (nextSes_of_idle _ hs).trans (if_neg hi), rfl⟩
  · rw [afterCycle_rxTime, nextRxTime_eq]
    cases s.sampled.rxTick <;> simp [hs]
  · have hen : enableFires (strobesOf ((command? s.sampled).getD .nop)) s = false := by simp [enableFires, hs]
    have hdone : decodeDone (strobesOf ((command? s.sampled).getD .nop)) s = false :=
      decodeDone_eq_false (.inl (by simp [hs]))
    simp [nextEdgeCount_eq _ hw, hen, hdone]

/-- A session in `IDLE` that has counted and observed no edge. -/
structure Listening (s : State) : Prop where
  cfg : s.cfg.wf = true
  st : s.ses.st = .idle
  edgeCount : s.edgeCount = 0
  lastCount : s.ses.lastCount = 0

section
variable {p : PortIn} {s t : State}

/-- R140: the session has observed all that it has counted. -/
theorem IdleCycle.ses_eq (h : IdleCycle p s t) (hs : Listening s) : t.ses = s.ses :=
  h.ses.trans (if_neg (not_not.mpr (hs.edgeCount.trans hs.lastCount.symm)))

/-- R131: without an edge on the line there is nothing to count. -/
theorem IdleCycle.listening (h : IdleCycle p s t) (hs : Listening s) (hline : s.line.s2 = s.line.prev) :
    Listening t where
  cfg := by rw [h.cfg, hs.cfg]
  st := by rw [h.ses_eq hs, hs.st]
  edgeCount := by
    rw [h.edgeCount, capturedCount_of_no_capture (by simp [captureFires, edgeDetected, hline]), hs.edgeCount]
  lastCount := by rw [h.ses_eq hs, hs.lastCount]

/-- R133: the first edge goes to entry 0, with the time of its cycle. -/
theorem IdleCycle.capture (h : IdleCycle p s t) (hs : Listening s) (hline : s.line.s2 ≠ s.line.prev) :
    t.edgeCount = 1 ∧ t.eb.entry 0 = some s.rxTime := by
  have hroom : s.edgeCount < s.cfg.edgeCap := hs.edgeCount ▸ (wf_edgeCap hs.cfg).1
  have hcap := (captureFires_iff s).mpr ⟨.inl hs.st, hline, hroom⟩
  refine ⟨?_, ?_⟩
  · rw [h.edgeCount, capturedCount, if_pos hcap, hs.edgeCount]
  · rw [h.eb, entry_nextEb, if_pos ⟨hcap, hs.edgeCount.symm⟩]

/-- R139: the session records a count that it has not observed. -/
theorem IdleCycle.activity (h : IdleCycle p s t) (hcount : s.edgeCount ≠ s.ses.lastCount) :
    t.ses = sessionActivity s :=
  h.ses.trans (if_pos hcount)

end

/-- Settles O16: two cycles bring the level to the end of the synchroniser, the third captures the edge and the fourth
observes it. -/
theorem edgeLatency : Obligations.EdgeLatency := by
  intro s level p₀ p₁ p₂ p₃ rest hinv hst hcount hline hin hlevel hports
  have hs : Listening s := ⟨hinv.cfg, hst, hcount, hinv.session.idle hst⟩
  obtain ⟨a, hsa, ca⟩ := step_of_idle hs.cfg hs.st hin (hports p₀ (by simp))
  have ha : Listening a := ca.listening hs (by simp [hline])
  obtain ⟨b, hab, cb⟩ := step_of_idle (ps := p₂ :: p₃ :: rest) ha.cfg ha.st (by simp [ca.inputs, hin])
    (hports p₁ (by simp))
  have hb : Listening b := cb.listening ha (by simp [ca.line, hline])
  obtain ⟨t, hbt, ct⟩ := step_of_idle (ps := p₃ :: rest) hb.cfg hb.st (by simp [cb.inputs, ca.inputs, hin])
    (hports p₂ (by simp))
  obtain ⟨htcount, hentry⟩ := ct.capture hb (by simp [cb.line, ca.line, hline, hlevel])
  have htses : t.ses = b.ses := ct.ses_eq hb
  obtain ⟨u, htu, cu⟩ := step_of_idle (ps := rest) (by rw [ct.cfg, hb.cfg]) (by rw [htses, hb.st])
    (by simp [ct.inputs, cb.inputs, ca.inputs, hin]) (hports p₃ (by simp))
  have huses : u.ses = sessionActivity t := cu.activity (by simp [htcount, htses, hb.lastCount])
  refine ⟨t, u, ?_, htcount, by rw [htses, hb.st], by rw [hentry, cb.rxTime, ca.rxTime], ?_, by rw [huses]; rfl, ?_⟩
  · rw [run_succ hsa, run_succ hab, run_succ hbt]
    rfl
  · rw [run_succ hsa, run_succ hab, run_succ hbt, run_succ htu]
    rfl
  · rw [huses, ← htcount]
    rfl

end Sys2Proof.Machine
end
